-- ==== Sys2Proof/Word.lean ====
section
/-! DEFINITION. The word types of the core: bytes, 16-bit words, the instruction fields, register indexes and key values. -/

namespace Sys2Proof

/-- One byte: a general register, a timer, a memory cell, the immediate NN (R21, R81). -/
abbrev Byte := BitVec 8

/-- One 16-bit word: `I`, `PC`, a stack entry, an instruction (R24, R25, R29, R80). -/
abbrev Word := BitVec 16

/-- The 12-bit field NNN (R81). -/
abbrev Imm12 := BitVec 12

/-- The 4-bit field N (R81). -/
abbrev Nibble := BitVec 4

/-- A key value in [0,15]: the key port is 4 bits wide (R116). -/
abbrev Key := BitVec 4

/-- The index of one of the sixteen general registers `V0`..`VF` (R21). -/
abbrev Reg := Fin 16

/-- `VF`, the flag register `V[15]` (R22). -/
abbrev vf : Reg := 15

end Sys2Proof
end

