-- ==== Sys2Proof/Syntax.lean ====
section
/-! DEFINITION. The instruction set: one constructor for each of the 35 rows of the opcode map (R91), and what a decoder
can answer. -/

namespace Sys2Proof

/-- The 35 instructions of R91, in the table's order.  X and Y are register indexes, NN, N and NNN the immediates of
R81; the low nibble of 5XYN and 9XYN is kept although it is not examined (R86). -/
inductive Instr where
  /-- 0NNN SYS NNN (R140) -/
  | sys (nnn : Imm12)
  /-- 00E0 CLS (R241) -/
  | cls
  /-- 00EE RET (R141) -/
  | ret
  /-- 1NNN JP NNN (R142) -/
  | jp (nnn : Imm12)
  /-- 2NNN CALL NNN (R143) -/
  | call (nnn : Imm12)
  /-- 3XNN SE Vx, NN (R144) -/
  | seImm (x : Reg) (nn : Byte)
  /-- 4XNN SNE Vx, NN (R145) -/
  | sneImm (x : Reg) (nn : Byte)
  /-- 5XYN SE Vx, Vy (R146) -/
  | seReg (x y : Reg) (n : Nibble)
  /-- 6XNN LD Vx, NN (R170) -/
  | ldImm (x : Reg) (nn : Byte)
  /-- 7XNN ADD Vx, NN (R171) -/
  | addImm (x : Reg) (nn : Byte)
  /-- 8XY0 LD Vx, Vy (R172) -/
  | ldReg (x y : Reg)
  /-- 8XY1 OR Vx, Vy (R173) -/
  | orReg (x y : Reg)
  /-- 8XY2 AND Vx, Vy (R174) -/
  | andReg (x y : Reg)
  /-- 8XY3 XOR Vx, Vy (R175) -/
  | xorReg (x y : Reg)
  /-- 8XY4 ADD Vx, Vy (R176) -/
  | addReg (x y : Reg)
  /-- 8XY5 SUB Vx, Vy (R177) -/
  | subReg (x y : Reg)
  /-- 8XY6 SHR Vx, Vy (R178) -/
  | shrReg (x y : Reg)
  /-- 8XY7 SUBN Vx, Vy (R179) -/
  | subnReg (x y : Reg)
  /-- 8XYE SHL Vx, Vy (R180) -/
  | shlReg (x y : Reg)
  /-- 9XYN SNE Vx, Vy (R147) -/
  | sneReg (x y : Reg) (n : Nibble)
  /-- ANNN LD I, NNN (R210) -/
  | ldI (nnn : Imm12)
  /-- BNNN JP V0, NNN (R148) -/
  | jpV0 (nnn : Imm12)
  /-- CXNN RND Vx, NN (R181) -/
  | rnd (x : Reg) (nn : Byte)
  /-- DXYN DRW Vx, Vy, N (R242) -/
  | drw (x y : Reg) (n : Nibble)
  /-- EX9E SKP Vx (R260) -/
  | skp (x : Reg)
  /-- EXA1 SKNP Vx (R261) -/
  | sknp (x : Reg)
  /-- FX07 LD Vx, DT (R262) -/
  | ldVxDt (x : Reg)
  /-- FX0A LD Vx, K (R265) -/
  | ldVxK (x : Reg)
  /-- FX15 LD DT, Vx (R263) -/
  | ldDtVx (x : Reg)
  /-- FX18 LD ST, Vx (R264) -/
  | ldStVx (x : Reg)
  /-- FX1E ADD I, Vx (R211) -/
  | addIVx (x : Reg)
  /-- FX29 LD F, Vx (R212) -/
  | ldFVx (x : Reg)
  /-- FX33 LD B, Vx (R213) -/
  | ldBVx (x : Reg)
  /-- FX55 LD [I], Vx (R214) -/
  | storeRegs (x : Reg)
  /-- FX65 LD Vx, [I] (R215) -/
  | loadRegs (x : Reg)
  deriving DecidableEq, Repr

/-- What decoding a word answers: an instruction, or the named rejection of R90 and R290, a sub-opcode with no handler. -/
inductive Decoded where
  | instr (i : Instr)
  | unknownOpcode (w : Word)
  deriving DecidableEq, Repr

/-- Why a list of bytes holds no instruction at its front. -/
inductive DecodeError where
  /-- The word is one of the unrecognized encodings of R90. -/
  | unknownOpcode (w : Word)
  /-- Fewer than the 2 bytes that every instruction takes (R80). -/
  | truncated
  deriving DecidableEq, Repr

/-- A row of the opcode map (R91): a word matches it when its bits under the mask are the match value. -/
structure OpRow where
  mask : Word
  mtch : Word
  deriving DecidableEq, Repr

end Sys2Proof
end

