-- ==== Sys2Proof/Config.lean ====
section
/-! DEFINITION. What one implementation fixes: the named parameters of R8, and the free random byte. -/

namespace Sys2Proof

/-- The values `AWAIT_RESUME_PC_ADVANCE` may take: 0 or 2 (R8, R117). -/
inductive ResumeAdvance where
  | zero
  | two
  deriving DecidableEq, Repr

/-- The implementation parameters of R8 that hold for a whole machine.  `State` carries one `Params`, which nothing
changes, so a statement about every state is a statement about every value of the parameters (log entry 1). -/
structure Params where
  /-- `FONT_ROM`: 16 glyphs of 5 bytes, the reset contents of 0x000..0x04F (R31). -/
  fontRom : Vector Byte 80
  /-- `AWAIT_RESUME_PC_ADVANCE`: what a key delivered to FX0A adds to PC (R117). -/
  resumeAdvance : ResumeAdvance
  deriving DecidableEq, Repr

/-- The random byte `rnd` offered to a step (R8, R125), one for each value of the model's step counter.  A FREE VALUE:
it has no body, so nothing can be proved of any byte or of the relation of two of them (log entry 2). -/
opaque Config.rnd : Nat → Byte

end Sys2Proof
end

