-- ==== Sys2Proof/Machine/Defaults.lean ====
section
/-! DEFINITION. The default values of the implementation parameters (R8). -/

namespace Sys2Proof.Machine

/-- Glyphs 0 to 3 of the default font (R31). -/
def fontGlyphs0 : List Byte :=
  [0xF0, 0x90, 0x90, 0x90, 0xF0,
   0x20, 0x60, 0x20, 0x20, 0x70,
   0xF0, 0x10, 0xF0, 0x80, 0xF0,
   0xF0, 0x10, 0xF0, 0x10, 0xF0]

/-- Glyphs 4 to 7. -/
def fontGlyphs4 : List Byte :=
  [0x90, 0x90, 0xF0, 0x10, 0x10,
   0xF0, 0x80, 0xF0, 0x10, 0xF0,
   0xF0, 0x80, 0xF0, 0x90, 0xF0,
   0xF0, 0x10, 0x20, 0x40, 0x40]

/-- Glyphs 8 to B. -/
def fontGlyphs8 : List Byte :=
  [0xF0, 0x90, 0xF0, 0x90, 0xF0,
   0xF0, 0x90, 0xF0, 0x10, 0xF0,
   0xF0, 0x90, 0xF0, 0x90, 0x90,
   0xE0, 0x90, 0xE0, 0x90, 0xE0]

/-- Glyphs C to F. -/
def fontGlyphsC : List Byte :=
  [0xF0, 0x80, 0x80, 0x80, 0xF0,
   0xE0, 0x90, 0x90, 0x90, 0xE0,
   0xF0, 0x80, 0xF0, 0x80, 0xF0,
   0xF0, 0x80, 0xF0, 0x80, 0x80]

/-- The default `FONT_ROM` of R31, glyph g at 5*g.  PRESUMED: the spec marks the bytes as general knowledge (D3, log
entry 3). -/
def defaultFontRom : Vector Byte 80 :=
  ⟨(fontGlyphs0 ++ fontGlyphs4 ++ fontGlyphs8 ++ fontGlyphsC).toArray, by decide⟩

/-- The defaults of R8: the conventional font, and `AWAIT_RESUME_PC_ADVANCE` = 0 (R117, log entry 4). -/
def defaultParams : Params := ⟨defaultFontRom, .zero⟩

end Sys2Proof.Machine
end

