-- ==== Sys2Proof/Machine/State.lean ====
section
/-! DEFINITION. The state of the core (R20), the reasons a step can stop, and the state after reset (R42). -/

namespace Sys2Proof.Machine

/-- `INPUT_STATE` (R35). -/
inductive InputState where
  | running
  | awaitingKey
  deriving DecidableEq, Repr

/-- The three fatal error kinds (R290). -/
inductive FatalKind where
  | addressingError
  | stackOverflow
  | stackUnderflow
  deriving DecidableEq, Repr

/-- The contents of a set fault latch: the error kind, the address PC0 of the instruction whose step faulted, and the
info value of R290 (R41). -/
structure FaultRecord where
  kind : FatalKind
  pc : Word
  info : Word
  deriving DecidableEq, Repr

/-- The 4096 bytes of `MEM` (R30), held as the sorted list of the bytes that differ from their reset contents. -/
abbrev Memory := List Host.Cell

/-- `FB[y][x]` (R34): 32 rows, top first, of 64 one-bit cells, left first. -/
abbrev Framebuffer := Vector (Vector Bool 64) 32

/-- The state of R20, and two fields of the model's own (`params`, `rndIndex`). -/
structure State where
  /-- `V[0..15]` (R21) -/
  v : Vector Byte 16
  /-- `I` (R24) -/
  i : Word
  /-- `PC` (R25) -/
  pc : Word
  /-- `SP`, the number of stack entries in use, 0..16 (R28) -/
  sp : Fin 17
  /-- `STACK[0..15]` (R29) -/
  stack : Vector Word 16
  /-- `DT`, the delay timer (R32) -/
  dt : Byte
  /-- `ST`, the sound timer (R33) -/
  st : Byte
  /-- `MEM` (R30) -/
  mem : Memory
  /-- `FB` (R34) -/
  fb : Framebuffer
  /-- `INPUT_STATE` (R35) -/
  inputState : InputState
  /-- `KEY_TARGET` (R36) -/
  keyTarget : Reg
  /-- `LAST_KEY`; `none` is the spec's own sentinel (R37) -/
  lastKey : Option Key
  /-- `FAULT`, the fault latch (R41) -/
  fault : Option FaultRecord
  /-- The model's own: the implementation parameters of R8, which nothing changes (log entry 1) -/
  params : Params
  /-- The model's own: which free random byte the next step is offered (R125, log entry 2) -/
  rndIndex : Nat
  deriving DecidableEq, Repr

/-- The reasons a step can stop without a next state: NONE.  Every fatal error of R290 sets the fault latch of a next
state (R292), and a frozen core's step answers the same state (R122), so this type has no constructor (log entry 7). -/
inductive Fault where
  deriving DecidableEq, Repr

/-- The reasons a step can be refused. -/
inductive Refusal where
  /-- Raised by an arm of `exec` for an instruction that has no meaning yet (safe: the machine stops).  No arm raises
  it: every instruction of R91 has its meaning. -/
  | notModelled (mnemonic : String)
  deriving DecidableEq, Repr

/-- The state after reset of a core with the given parameters (R42, R330).  The model's own counter `rndIndex` is given
too, so that a reset does not offer the bytes of an earlier step again (log entry 2).  `PC`, the font and Running are
the source's values; every other value is the spec's decision D2 (log entries 5 and 6). -/
def State.resetWith (params : Params) (rndIndex : Nat) : State where
  v := Vector.replicate 16 0
  i := 0
  pc := 0x200
  sp := 0
  stack := Vector.replicate 16 0
  dt := 0
  st := 0
  mem := []
  fb := Vector.replicate 32 (Vector.replicate 64 false)
  inputState := .running
  keyTarget := 0
  lastKey := none
  fault := none
  params := params
  rndIndex := rndIndex

/-- The machine right after reset, with the default parameters of R8. -/
def State.reset : State := State.resetWith defaultParams 0

end Sys2Proof.Machine
end

