-- ==== Sys2Proof/Machine/Ops.lean ====
section
/-! DEFINITION. The operations shared by the meanings: registers, memory, the instruction fetch, the call stack, the
framebuffer, the timers, and taking a fatal error. -/

namespace Sys2Proof.Machine

/-! ### Registers -/

/-- `V[r]` (R10, R21). -/
def State.getV (s : State) (r : Reg) : Byte := s.v[r.val]

/-- `V[r] <- b` (R10, R21): no register is hardwired or aliased. -/
def State.setV (s : State) (r : Reg) (b : Byte) : State := { s with v := s.v.set r.val b }

/-- `I <- w` (R24). -/
def State.setI (s : State) (w : Word) : State := { s with i := w }

/-- `PC <- w` (R25). -/
def State.setPc (s : State) (w : Word) : State := { s with pc := w }

/-- `DT <- b` (R32). -/
def State.setDt (s : State) (b : Byte) : State := { s with dt := b }

/-- `ST <- b` (R33). -/
def State.setSt (s : State) (b : Byte) : State := { s with st := b }

/-- Replace the framebuffer (R34). -/
def State.setFb (s : State) (fb : Framebuffer) : State := { s with fb := fb }

/-- `LAST_KEY <- k` (R37). -/
def State.setLastKey (s : State) (k : Option Key) : State := { s with lastKey := k }

/-- Replace the memory. -/
def State.setMem (s : State) (m : Memory) : State := { s with mem := m }

/-- The fetch's advance of PC past the 2-byte instruction, modulo 2^16 (R27, R111). -/
def advancePc (s : State) : State := s.setPc (s.pc + 2)

/-- A satisfied skip adds a further 2 to PC, modulo 2^16 (R25, R144). -/
def skipNext (s : State) : State := s.setPc (s.pc + 2)

/-- `if c: PC <- (PC + 2) mod 2^16` (R144). -/
def skipIf (c : Bool) (s : State) : State := if c then skipNext s else s

/-- V0, V1, ..: the first `n` registers in ascending order (R214). -/
def firstRegs (s : State) (n : Nat) : List Byte := s.v.toList.take n

/-- Write consecutive registers from number `r` on, in ascending order (R215); there is no register past VF. -/
def writeRegs (s : State) : Nat → List Byte → State
  | _, [] => s
  | r, b :: bs => if h : r < 16 then writeRegs (s.setV ⟨r, h⟩ b) (r + 1) bs else s

/-! ### Memory -/

/-- What an address that the memory does not list reads as: its reset contents, the font at 0x000..0x04F (R31) and
0x00 elsewhere (R42, log entry 6). -/
def unlistedByte (p : Params) (a : Nat) : Byte := if h : a < 80 then p.fontRom[a] else 0

/-- The byte that a list of cells gives an address, if it lists it. -/
def Memory.lookup : Memory → Nat → Option Byte
  | [], _ => none
  | (k, b) :: m, a => if k = a then some b else Memory.lookup m a

/-- `MEM[a]` (R60, R61). -/
def Memory.get (p : Params) (m : Memory) (a : Nat) : Byte := (Memory.lookup m a).getD (unlistedByte p a)

/-- List a byte at an address, keeping the addresses rising. -/
def Memory.put : Memory → Nat → Byte → Memory
  | [], a, b => [(a, b)]
  | (k, c) :: m, a, b =>
    if a < k then (a, b) :: (k, c) :: m
    else if a = k then (a, b) :: m
    else (k, c) :: Memory.put m a b

/-- List no byte at an address. -/
def Memory.erase : Memory → Nat → Memory
  | [], _ => []
  | (k, c) :: m, a => if k = a then Memory.erase m a else (k, c) :: Memory.erase m a

/-- `MEM[a] <- b` (R61), in canonical form: a byte equal to the reset contents is not listed. -/
def Memory.set (p : Params) (m : Memory) (a : Nat) (b : Byte) : Memory :=
  if b = unlistedByte p a then Memory.erase m a else Memory.put m a b

/-- The canonical form: addresses strictly rising and inside [0, 4095], no byte equal to what an unlisted address reads
as. -/
abbrev Memory.wf (p : Params) (m : Memory) : Prop :=
  m.Pairwise (fun c d => c.1 < d.1) ∧ ∀ c ∈ m, c.1 < 4096 ∧ c.2 ≠ unlistedByte p c.1

/-- One byte of the machine's memory, without the bounds check. -/
def State.byteAt (s : State) (a : Nat) : Byte := Memory.get s.params s.mem a

/-- `MemRead(a, 1)`: the byte, or the address that AddressingError records (R61). -/
def memRead (s : State) (a : Nat) : Except Nat Byte :=
  if a > 0xFFF then .error a else .ok (s.byteAt a)

/-- `MemWrite(a, 1, b)` (R61). -/
def memWrite (s : State) (a : Nat) (b : Byte) : Except Nat State :=
  if a > 0xFFF then .error a else .ok (s.setMem (Memory.set s.params s.mem a b))

/-- `MemRead(a, 2)`, big-endian, the lower address read first (R62). -/
def memReadWord (s : State) (a : Nat) : Except Nat Word :=
  match memRead s a with
  | .error e => .error e
  | .ok hi =>
    match memRead s (a + 1) with
    | .error e => .error e
    | .ok lo => .ok (wordOfBytes hi lo)

/-- Read `n` bytes at ascending addresses from `a` on (R64, R66). -/
def readBytes (s : State) : Nat → Nat → Except Nat (List Byte)
  | _, 0 => .ok []
  | a, n + 1 =>
    match memRead s a with
    | .error e => .error e
    | .ok b =>
      match readBytes s (a + 1) n with
      | .error e => .error e
      | .ok bs => .ok (b :: bs)

/-- Write bytes at ascending addresses from `a` on.  An error carries no state: none of the writes survives it (R64,
R66). -/
def writeBytes (s : State) : Nat → List Byte → Except Nat State
  | _, [] => .ok s
  | a, b :: bs =>
    match memWrite s a b with
    | .error e => .error e
    | .ok t => writeBytes t (a + 1) bs

/-- The fetch of the word at PC (R111). -/
def fetchWord (s : State) : Except Nat Word := memReadWord s s.pc.toNat

/-- Make `w` the word that the next step fetches: the core runs, is not frozen, its PC is one that a fetch accepts, and
the bytes of `w` stand there.  A state that already runs with such a PC keeps all but those two bytes. -/
def placeFetchWord (s : State) (w : Word) : State :=
  let pc := if s.pc.toNat < 0xFFF then s.pc else 0x200
  let hi := (w >>> 8).setWidth 8
  let lo := w.setWidth 8
  { s with
    pc := pc
    inputState := .running
    fault := none
    mem := Memory.set s.params (Memory.set s.params s.mem pc.toNat hi) (pc.toNat + 1) lo }

/-! ### Fatal errors -/

/-- Taking a fatal error (R292): the state is the one before the step, so PC is PC0 again, and `FAULT` records the kind,
PC0 and the info.  `s` is a state that differs from the one before the step in PC at most. -/
def raiseFatal (pc0 : Word) (kind : FatalKind) (info : Word) (s : State) : State :=
  { s with pc := pc0, fault := some ⟨kind, pc0, info⟩ }

/-- `raise E(info)` in a handler, where PC is PC0 + 2 and nothing else has changed since the step began (R12, R13). -/
def raiseInHandler (kind : FatalKind) (info : Word) (s : State) : State := raiseFatal (s.pc - 2) kind info s

/-- Leaving the fault latch, the only way out of the frozen core (R123, R294): every piece of state goes to its reset
value, the parameters staying as they are. -/
def hostReset (s : State) : State := State.resetWith s.params s.rndIndex

/-- A handler's outcome: the state it made, or AddressingError with the recorded address, raised in the handler's first
state `s` (R64, R126). -/
def orAddressingError (s : State) : Except Nat State → State
  | .ok t => t
  | .error a => raiseInHandler .addressingError (BitVec.ofNat 16 a) s

/-! ### The call stack -/

/-- `STACK[SP] <- w; SP <- SP + 1`, or none when SP = 16 (R28, R143). -/
def pushStack (s : State) (w : Word) : Option State :=
  if h : s.sp.val < 16 then some { s with stack := s.stack.set s.sp.val w, sp := ⟨s.sp.val + 1, by omega⟩ } else none

/-- `SP <- SP - 1` and the entry `STACK[SP]`, or none when SP = 0.  The entry stays in the stack (R29, R141). -/
def popStack (s : State) : Option (Word × State) :=
  if h : s.sp.val = 0 then none
  else some (s.stack[s.sp.val - 1]'(by omega), { s with sp := ⟨s.sp.val - 1, by omega⟩ })

/-! ### The framebuffer -/

/-- `FB[y][x]` (R10, R34). -/
def cellAt (fb : Framebuffer) (x : Fin 64) (y : Fin 32) : Bool := (fb[y.val])[x.val]

/-- `FB[y][x] <- FB[y][x] ^ 1` (R242). -/
def toggleCell (fb : Framebuffer) (x : Fin 64) (y : Fin 32) : Framebuffer :=
  fb.set y.val ((fb[y.val]).set x.val (!cellAt fb x y))

/-- The framebuffer with every cell 0 (R241). -/
def clearFb : Framebuffer := Vector.replicate 32 (Vector.replicate 64 false)

/-- Columns wrap modulo 64 (R240). -/
def wrapX (x : Nat) : Fin 64 := ⟨x % 64, Nat.mod_lt _ (by decide)⟩

/-- Rows wrap modulo 32 (R240). -/
def wrapY (y : Nat) : Fin 32 := ⟨y % 32, Nat.mod_lt _ (by decide)⟩

/-- One pixel of a draw: a 1 bit toggles its cell, and a cell that was 1 makes a collision (R242).  The pair is the
framebuffer so far and the collision so far. -/
def drawPixel (x y : Nat) (bit : Bool) (acc : Framebuffer × Bool) : Framebuffer × Bool :=
  if bit then (toggleCell acc.1 (wrapX x) (wrapY y), acc.2 || cellAt acc.1 (wrapX x) (wrapY y)) else acc

/-- The last `k` pixels of a sprite row, bit 7 leftmost (R240): with `k = 8` the whole row. -/
def drawRow (x0 y : Nat) (b : Byte) : Nat → Framebuffer × Bool → Framebuffer × Bool
  | 0, acc => acc
  | k + 1, acc => drawRow x0 y b k (drawPixel (x0 + (7 - k)) y (b.getLsbD k) acc)

/-- The rows of a sprite, top first, from row `y` on (R242). -/
def drawRows (x0 : Nat) : Nat → List Byte → Framebuffer × Bool → Framebuffer × Bool
  | _, [], acc => acc
  | y, b :: bs, acc => drawRows x0 (y + 1) bs (drawRow x0 y b 8 acc)

/-! ### Timers and the end of a step -/

/-- A timer above 0 goes down by 1, a timer at 0 stays there (R300). -/
def tickTimer (b : Byte) : Byte := if b = 0 then 0 else b - 1

/-- `timer_tick()`: both timers tick once (R300). -/
def timerTick (s : State) : State := { s with dt := tickTimer s.dt, st := tickTimer s.st }

/-- The end of a step that did not fault: the timers tick (R110), and the next step is offered another random byte
(R125). -/
def completeStep (s : State) : State := { timerTick s with rndIndex := s.rndIndex + 1 }

end Sys2Proof.Machine
end

