-- ==== Sys2Proof/Machine/Operands.lean ====
section
/-! DEFINITION. The operand forms: every widening is a zero-extension (R12, R83), and the computed operands of the
index instructions. -/

namespace Sys2Proof.Machine

/-- NNN zero-extended to 16 bits (R83). -/
def zextImm (nnn : Imm12) : Word := nnn.setWidth 16

/-- A register's byte zero-extended to 16 bits (R148, R211). -/
def zextByte (b : Byte) : Word := b.setWidth 16

/-- A key value as a byte (R116). -/
def zextKey (k : Key) : Byte := k.setWidth 8

/-- The address of glyph `b`: five bytes a glyph, the full byte used (R212). -/
def glyphAddress (b : Byte) : Word := zextByte b * 5

/-- The hundreds, tens and ones of a byte, as binary values (R213). -/
def bcdDigits (b : Byte) : List Byte :=
  [BitVec.ofNat 8 (b.toNat / 100), BitVec.ofNat 8 (b.toNat / 10 % 10), BitVec.ofNat 8 (b.toNat % 10)]

/-- The origin column of a draw: Vx mod 64 (R240). -/
def originX (b : Byte) : Nat := b.toNat % 64

/-- The origin row of a draw: Vy mod 32 (R240). -/
def originY (b : Byte) : Nat := b.toNat % 32

/-- The base address of a memory transfer: `I`, as an unbounded natural (R64). -/
def baseAddress (s : State) : Nat := s.i.toNat

/-- How many registers FX55 and FX65 move: V0..Vx, X + 1 of them (R214, R215). -/
def blockLength (x : Reg) : Nat := x.val + 1

/-- Does the tracked key equal `b`?  The sentinel `none` and a value above 15 never match (R260). -/
def keyMatches (lastKey : Option Key) (b : Byte) : Bool :=
  match lastKey with
  | none => false
  | some k => b == zextKey k

/-- The increment that resuming from FX0A adds to PC (R117). -/
def resumeIncrement : ResumeAdvance → Word
  | .zero => 0
  | .two => 2

/-- The random byte offered to the step that runs in `s` (R125). -/
def offeredByte (s : State) : Byte := Config.rnd s.rndIndex

end Sys2Proof.Machine
end

