-- ==== Sys2Proof/Machine/ControlFlow.lean ====
section
/-! DEFINITION. The instructions that change PC (41_control_flow.md).  In every meaning PC already holds PC0 + 2 (R13). -/

namespace Sys2Proof.Machine

/-- An unrecognized sub-opcode runs as `nop` (R90, R296). -/
def execUnknownOpcode (_w : Word) (s : State) : State := s

/-- SYS NNN: no-op (R140). -/
def execSys (_nnn : Imm12) (s : State) : Host.Outcome State Fault Refusal := .next s

/-- RET (R141). -/
def execRet (s : State) : Host.Outcome State Fault Refusal :=
  match popStack s with
  | none => .next (raiseInHandler .stackUnderflow 0 s)
  | some (target, t) => .next (t.setPc target)

/-- JP NNN (R142). -/
def execJp (nnn : Imm12) (s : State) : Host.Outcome State Fault Refusal := .next (s.setPc (zextImm nnn))

/-- CALL NNN: the pushed value is PC0 + 2 (R143). -/
def execCall (nnn : Imm12) (s : State) : Host.Outcome State Fault Refusal :=
  match pushStack s s.pc with
  | none => .next (raiseInHandler .stackOverflow 16 s)
  | some t => .next (t.setPc (zextImm nnn))

/-- SE Vx, NN (R144). -/
def execSeImm (x : Reg) (nn : Byte) (s : State) : Host.Outcome State Fault Refusal :=
  .next (skipIf (s.getV x == nn) s)

/-- SNE Vx, NN (R145). -/
def execSneImm (x : Reg) (nn : Byte) (s : State) : Host.Outcome State Fault Refusal :=
  .next (skipIf (s.getV x != nn) s)

/-- SE Vx, Vy; N is not examined (R146). -/
def execSeReg (x y : Reg) (s : State) : Host.Outcome State Fault Refusal :=
  .next (skipIf (s.getV x == s.getV y) s)

/-- SNE Vx, Vy; N is not examined (R147). -/
def execSneReg (x y : Reg) (s : State) : Host.Outcome State Fault Refusal :=
  .next (skipIf (s.getV x != s.getV y) s)

/-- JP V0, NNN: 16-bit unsigned addition (R148). -/
def execJpV0 (nnn : Imm12) (s : State) : Host.Outcome State Fault Refusal :=
  .next (s.setPc (zextByte (s.getV 0) + zextImm nnn))

end Sys2Proof.Machine
end

