-- ==== Sys2Proof/Machine/Cycle.lean ====
section
/-! DEFINITION. The parts of a step around its instruction (40_cycle.md). -/

namespace Sys2Proof.Machine

/-- What a step comes to before its handler runs: it is over, or it runs an instruction in a state whose PC is already
past it. -/
inductive StepStart where
  | done (s : State)
  | execute (i : Instr) (s : State)
  deriving DecidableEq, Repr

/-- Parts 1 to 3 of a step (R110): a frozen core does nothing (R122), an AwaitingKey step only ticks (R114), and a
Running step fetches, advances PC and decodes (R111, R112). -/
def beginStep (s : State) : StepStart :=
  match s.fault with
  | some _ => .done s
  | none =>
    match s.inputState with
    | .awaitingKey => .done (completeStep s)
    | .running =>
      match fetchWord s with
      | .error a => .done (raiseFatal s.pc .addressingError (BitVec.ofNat 16 a) s)
      | .ok w =>
        match decode w with
        | .unknownOpcode _ => .done (completeStep (execUnknownOpcode w (advancePc s)))
        | .instr i => .execute i (advancePc s)

/-- Part 4 of a step (R110): a step whose handler did not raise ticks the timers; one whose handler raised has already
taken the fatal error and does not (R300). -/
def finishStep : Host.Outcome State Fault Refusal → Host.Outcome State Fault Refusal
  | .next t => if t.fault.isSome then .next t else .next (completeStep t)
  | .fault r => .fault r
  | .refused r => .refused r

end Sys2Proof.Machine
end

