-- ==== Sys2Proof/Machine/Flags.lean ====
section
/-! DEFINITION. The values that VF, the one flag, takes (R38). -/

namespace Sys2Proof.Machine

/-- A flag as VF holds it: 0x01 or 0x00. -/
def flagByte (c : Bool) : Byte := if c then 1 else 0

/-- 8XY4: 1 if Vx + Vy > 255, else 0 (R176). -/
def carryFlag (vx vy : Byte) : Byte := flagByte (decide (vx.toNat + vy.toNat > 255))

/-- 8XY5 and 8XY7: 0 if a < b (borrow), else 1 (R177, R179). -/
def notBorrowFlag (a b : Byte) : Byte := flagByte (decide (¬ a.toNat < b.toNat))

/-- 8XY6: the bit shifted out, Vy & 1 (R178). -/
def shiftedOutLow (vy : Byte) : Byte := vy &&& 1

/-- 8XYE: the bit shifted out, (Vy >> 7) & 1 (R180). -/
def shiftedOutHigh (vy : Byte) : Byte := (vy >>> 7) &&& 1

/-- Write a result and then the flag, so that the flag stays when X = 0xF (R183). -/
def setVWithFlag (s : State) (x : Reg) (result flag : Byte) : State := (s.setV x result).setV vf flag

end Sys2Proof.Machine
end

