-- ==== Sys2Proof/Machine/Alu.lean ====
section
/-! DEFINITION. The ALU (42_alu.md): immediates, the register family 8XYN, random.  Operands are read before any write,
and Vx is written before VF (R183). -/

namespace Sys2Proof.Machine

/-- LD Vx, NN (R170). -/
def execLdImm (x : Reg) (nn : Byte) (s : State) : Host.Outcome State Fault Refusal := .next (s.setV x nn)

/-- ADD Vx, NN: no flag (R171). -/
def execAddImm (x : Reg) (nn : Byte) (s : State) : Host.Outcome State Fault Refusal := .next (s.setV x (s.getV x + nn))

/-- LD Vx, Vy (R172). -/
def execLdReg (x y : Reg) (s : State) : Host.Outcome State Fault Refusal := .next (s.setV x (s.getV y))

/-- OR Vx, Vy: VF is no flag here (R173). -/
def execOrReg (x y : Reg) (s : State) : Host.Outcome State Fault Refusal := .next (s.setV x (s.getV x ||| s.getV y))

/-- AND Vx, Vy (R174). -/
def execAndReg (x y : Reg) (s : State) : Host.Outcome State Fault Refusal := .next (s.setV x (s.getV x &&& s.getV y))

/-- XOR Vx, Vy (R175). -/
def execXorReg (x y : Reg) (s : State) : Host.Outcome State Fault Refusal := .next (s.setV x (s.getV x ^^^ s.getV y))

/-- ADD Vx, Vy (R176). -/
def execAddReg (x y : Reg) (s : State) : Host.Outcome State Fault Refusal :=
  .next (setVWithFlag s x (s.getV x + s.getV y) (carryFlag (s.getV x) (s.getV y)))

/-- SUB Vx, Vy (R177). -/
def execSubReg (x y : Reg) (s : State) : Host.Outcome State Fault Refusal :=
  .next (setVWithFlag s x (s.getV x - s.getV y) (notBorrowFlag (s.getV x) (s.getV y)))

/-- SHR Vx, Vy: the source is Vy (R178). -/
def execShrReg (x y : Reg) (s : State) : Host.Outcome State Fault Refusal :=
  .next (setVWithFlag s x (s.getV y >>> 1) (shiftedOutLow (s.getV y)))

/-- SUBN Vx, Vy (R179). -/
def execSubnReg (x y : Reg) (s : State) : Host.Outcome State Fault Refusal :=
  .next (setVWithFlag s x (s.getV y - s.getV x) (notBorrowFlag (s.getV y) (s.getV x)))

/-- SHL Vx, Vy: the source is Vy (R180). -/
def execShlReg (x y : Reg) (s : State) : Host.Outcome State Fault Refusal :=
  .next (setVWithFlag s x (s.getV y <<< 1) (shiftedOutHigh (s.getV y)))

/-- RND with the random byte as an argument (R181). -/
def rndWith (rnd : Byte) (x : Reg) (nn : Byte) (s : State) : State := s.setV x (rnd &&& nn)

/-- RND Vx, NN: the byte is the one offered to this step (R125, R181). -/
def execRnd (x : Reg) (nn : Byte) (s : State) : Host.Outcome State Fault Refusal :=
  .next (rndWith (offeredByte s) x nn s)

end Sys2Proof.Machine
end

