-- ==== Sys2Proof/Machine/Display.lean ====
section
/-! DEFINITION. The framebuffer instructions (44_display.md). -/

namespace Sys2Proof.Machine

/-- CLS (R241). -/
def execCls (s : State) : Host.Outcome State Fault Refusal := .next (s.setFb clearFb)

/-- Draw sprite rows at the origin of Vx and Vy, then write VF with the collision (R242). -/
def drawSprite (s : State) (vx vy : Byte) (rows : List Byte) : State :=
  let drawn := drawRows (originX vx) (originY vy) rows (s.fb, false)
  (s.setFb drawn.1).setV vf (flagByte drawn.2)

/-- DRW Vx, Vy, N: the origin is read first, then all sprite bytes, and only then is anything written (R242). -/
def execDrw (x y : Reg) (n : Nibble) (s : State) : Host.Outcome State Fault Refusal :=
  .next (orAddressingError s ((readBytes s (baseAddress s) n.toNat).map (drawSprite s (s.getV x) (s.getV y))))

end Sys2Proof.Machine
end

