-- ==== Sys2Proof/Machine/IndexMemory.lean ====
section
/-! DEFINITION. The index register and the memory transfers (43_index_memory.md).  No transfer changes I. -/

namespace Sys2Proof.Machine

/-- LD I, NNN (R210). -/
def execLdI (nnn : Imm12) (s : State) : Host.Outcome State Fault Refusal := .next (s.setI (zextImm nnn))

/-- ADD I, Vx: modulo 2^16, no flag (R211). -/
def execAddIVx (x : Reg) (s : State) : Host.Outcome State Fault Refusal := .next (s.setI (s.i + zextByte (s.getV x)))

/-- LD F, Vx (R212). -/
def execLdFVx (x : Reg) (s : State) : Host.Outcome State Fault Refusal := .next (s.setI (glyphAddress (s.getV x)))

/-- LD B, Vx: three digits at I, I+1, I+2 (R213). -/
def execLdBVx (x : Reg) (s : State) : Host.Outcome State Fault Refusal :=
  .next (orAddressingError s (writeBytes s (baseAddress s) (bcdDigits (s.getV x))))

/-- LD [I], Vx: V0..Vx to I.. (R214). -/
def execStoreRegs (x : Reg) (s : State) : Host.Outcome State Fault Refusal :=
  .next (orAddressingError s (writeBytes s (baseAddress s) (firstRegs s (blockLength x))))

/-- LD Vx, [I]: V0..Vx from I.. (R215). -/
def execLoadRegs (x : Reg) (s : State) : Host.Outcome State Fault Refusal :=
  .next (orAddressingError s ((readBytes s (baseAddress s) (blockLength x)).map (writeRegs s 0)))

end Sys2Proof.Machine
end

