-- ==== Sys2Proof/Machine/InputTimers.lean ====
section
/-! DEFINITION. The key and timer instructions (45_input_timers.md). -/

namespace Sys2Proof.Machine

/-- SKP Vx: a match skips and keeps the key, a mismatch consumes it (R260). -/
def execSkp (x : Reg) (s : State) : Host.Outcome State Fault Refusal :=
  .next (if keyMatches s.lastKey (s.getV x) then skipNext s else s.setLastKey none)

/-- SKNP Vx: a match does nothing, a mismatch skips and consumes the key (R261). -/
def execSknp (x : Reg) (s : State) : Host.Outcome State Fault Refusal :=
  .next (if keyMatches s.lastKey (s.getV x) then s else (skipNext s).setLastKey none)

/-- LD Vx, DT (R262). -/
def execLdVxDt (x : Reg) (s : State) : Host.Outcome State Fault Refusal := .next (s.setV x s.dt)

/-- LD Vx, K: enter AwaitingKey and record the target; V[X] is written by the key delivery (R265). -/
def execLdVxK (x : Reg) (s : State) : Host.Outcome State Fault Refusal :=
  .next { s with inputState := .awaitingKey, keyTarget := x }

/-- LD DT, Vx (R263). -/
def execLdDtVx (x : Reg) (s : State) : Host.Outcome State Fault Refusal := .next (s.setDt (s.getV x))

/-- LD ST, Vx (R264). -/
def execLdStVx (x : Reg) (s : State) : Host.Outcome State Fault Refusal := .next (s.setSt (s.getV x))

end Sys2Proof.Machine
end

