-- ==== Sys2Proof/Machine/Step.lean ====
section
/-! DEFINITION. One step of the core (R110), and the placing of the instruction that the next step runs. -/

namespace Sys2Proof.Machine

/-- `step(rnd)` (R110): begin the step, run its instruction if there is one, tick. -/
def step (s : State) : Host.Outcome State Fault Refusal :=
  match beginStep s with
  | .done t => .next t
  | .execute i t => finishStep (exec i t)

/-- The state with the table word `w` of `nbits` bits stored where `step` fetches its next instruction. -/
def State.withFetchWord (s : State) (nbits w : Nat) : State :=
  placeFetchWord s (BitVec.ofNat 16 (w % 2 ^ nbits))

end Sys2Proof.Machine
end

