-- ==== Sys2Proof/Machine/HostOps.lean ====
section
/-! DEFINITION. The host's operations between steps, the read-only probes, and the bit encodings of the control state
(40_cycle.md section 2, R39). -/

namespace Sys2Proof.Machine

/-- Delivery of a key to a core that is not frozen and awaits one: V[KEY_TARGET], Running, the resumption advance (R116,
R117). -/
def resumeWithKey (k : Key) (s : State) : State :=
  { s.setV s.keyTarget (zextKey k) with
    inputState := .running
    pc := s.pc + resumeIncrement s.params.resumeAdvance }

/-- `press_key(k)` (R116): ignored while the fault latch is set, else `LAST_KEY` takes the key and an awaiting core
resumes. -/
def pressKey (k : Key) (s : State) : State :=
  match s.fault with
  | some _ => s
  | none =>
    match s.inputState with
    | .running => s.setLastKey (some k)
    | .awaitingKey => resumeWithKey k (s.setLastKey (some k))

/-- The longest program image: 4096 - 0x200 bytes (R115). -/
def maxProgramLength : Nat := 4096 - 0x200

/-- `load_program(bytes)` (R115): an image that is too long changes nothing, any other is copied to 0x200 on.  Nothing
but memory changes, and the fault latch does not matter. -/
def loadProgram (bytes : List Byte) (s : State) : State :=
  if bytes.length > maxProgramLength then s
  else
    match writeBytes s 0x200 bytes with
    | .ok t => t
    | .error _ => s

/-- `is_awaiting_key()` (R119). -/
def isAwaitingKey (s : State) : Bool := s.inputState == .awaitingKey

/-- `fault_status()` (R120). -/
def faultStatus (s : State) : Option FaultRecord := s.fault

/-- The output `sound_active` = (ST != 0) (R120, R302). -/
def soundActive (s : State) : Bool := s.st != 0

/-- `framebuffer_snapshot()`: the 2048 cells, row-major, element y*64 + x (R118). -/
def framebufferSnapshot (s : State) : List Bool := s.fb.toList.flatMap (fun row => row.toList)

/-- The 5-bit encoding of `SP` (R39). -/
def spBits (s : State) : BitVec 5 := BitVec.ofNat 5 s.sp.val

/-- The 1-bit encoding of `INPUT_STATE`: 0 Running, 1 AwaitingKey (R39). -/
def inputStateBit : InputState → BitVec 1
  | .running => 0
  | .awaitingKey => 1

/-- The 4-bit encoding of `KEY_TARGET` (R39). -/
def keyTargetBits (s : State) : BitVec 4 := BitVec.ofNat 4 s.keyTarget.val

/-- The 5-bit encoding of `LAST_KEY`, 0x10 for none (R39). -/
def lastKeyBits : Option Key → BitVec 5
  | none => 0x10
  | some k => k.setWidth 5

/-- The 2-bit code of a fatal error kind (R39, R290). -/
def fatalCode : FatalKind → BitVec 2
  | .addressingError => 1
  | .stackOverflow => 2
  | .stackUnderflow => 3

/-- The 2-bit encoding of `FAULT.kind`, 0 for none (R39). -/
def faultKindBits : Option FaultRecord → BitVec 2
  | none => 0
  | some f => fatalCode f.kind

/-- The 16-bit fields `FAULT.pc` and `FAULT.info`, both 0 when the latch is clear (R39). -/
def faultFieldBits : Option FaultRecord → Word × Word
  | none => (0, 0)
  | some f => (f.pc, f.info)

end Sys2Proof.Machine
end

