-- ==== Sys2Proof/Machine/Session.lean ====
section
/-! DEFINITION. The core under its host: a sequence of serialised operations (R121), and the results they return. -/

namespace Sys2Proof.Machine

/-- The host operations of 40_cycle.md section 2 (R110, R115, R116, R118 to R120, R123). -/
inductive HostOp where
  | step
  | pressKey (k : Key)
  | loadProgram (bytes : List Byte)
  | reset
  | framebufferSnapshot
  | isAwaitingKey
  | faultStatus
  | soundActive
  deriving DecidableEq, Repr

/-- The state a host operation leaves (R121).  A probe changes nothing. -/
def applyOp (op : HostOp) (s : State) : Host.Outcome State Fault Refusal :=
  match op with
  | .step => step s
  | .pressKey k => .next (pressKey k s)
  | .loadProgram bytes => .next (loadProgram bytes s)
  | .reset => .next (hostReset s)
  | .framebufferSnapshot => .next s
  | .isAwaitingKey => .next s
  | .faultStatus => .next s
  | .soundActive => .next s

/-- A sequence of host operations, each on the state the one before it left (R121). -/
def runOps : List HostOp → State → Host.Outcome State Fault Refusal
  | [], s => .next s
  | op :: ops, s =>
    match applyOp op s with
    | .next t => runOps ops t
    | .fault r => .fault r
    | .refused r => .refused r

/-- What a host operation returns (R110, R115, R116, R118 to R120, R296, D34). -/
inductive HostResult where
  | ok
  /-- `Ok` with the diagnostic tag `UnknownOpcode(w)` (R296). -/
  | okUnknownOpcode (w : Word)
  | error (f : FaultRecord)
  | halted
  | ignored
  | refused
  | cells (fb : List Bool)
  | bool (b : Bool)
  | status (f : Option FaultRecord)
  deriving DecidableEq, Repr

/-- The diagnostic of a step that did not fault: `UnknownOpcode(w)` if it ran an unrecognized word (R296). -/
def okResult (s : State) : HostResult :=
  match s.inputState with
  | .awaitingKey => .ok
  | .running =>
    match fetchWord s with
    | .error _ => .ok
    | .ok w =>
      match decode w with
      | .instr _ => .ok
      | .unknownOpcode u => .okUnknownOpcode u

/-- The result of `step` in `s`: `Halted` when frozen, `Error(kind, pc, info)` when the step sets the latch, else `Ok`
(R110, R122).  No step is refused, since every arm of `exec` has a meaning; the last arm only makes the function total. -/
def stepResult (s : State) : HostResult :=
  match s.fault with
  | some _ => .halted
  | none =>
    match step s with
    | .next t =>
      match t.fault with
      | some f => .error f
      | none => okResult s
    | .fault r => nomatch r
    | .refused _ => .halted

/-- The result of a host operation in `s` (R110, R115, R116, R118 to R120, D34).  The spec gives `reset()` no result:
`Ok` for it is the model's DESIGN CHOICE (log entry 38). -/
def opResult (op : HostOp) (s : State) : HostResult :=
  match op with
  | .step => stepResult s
  | .pressKey _ => if s.fault.isSome then .ignored else .ok
  | .loadProgram bytes => if bytes.length > maxProgramLength then .refused else .ok
  | .reset => .ok
  | .framebufferSnapshot => .cells (framebufferSnapshot s)
  | .isAwaitingKey => .bool (isAwaitingKey s)
  | .faultStatus => .status (faultStatus s)
  | .soundActive => .bool (soundActive s)

end Sys2Proof.Machine
end

