-- ==== Sys2Proof/Safety.lean ====
section
/-! DEFINITION. The terms that statements about the machine use: the pieces of state and what may change them, the fatal
errors of each instruction, the invariants, and what counts as a safe run. -/

namespace Sys2Proof.Machine

/-! ### The fields of a word, in the notation of R81 -/

/-- F = w[15:12]. -/
def wordF (w : Word) : Nibble := w.extractLsb' 12 4

/-- X = w[11:8]. -/
def wordX (w : Word) : Reg := (w.extractLsb' 8 4).toFin

/-- Y = w[7:4]. -/
def wordY (w : Word) : Reg := (w.extractLsb' 4 4).toFin

/-- N = w[3:0]. -/
def wordN (w : Word) : Nibble := w.extractLsb' 0 4

/-- NN = w[7:0]. -/
def wordNN (w : Word) : Byte := w.extractLsb' 0 8

/-- NNN = w[11:0]. -/
def wordNNN (w : Word) : Imm12 := w.extractLsb' 0 12

/-! ### Pieces of state -/

/-- One piece of the state of R20 (and of the model's own two fields): a register, a byte of memory, a cell, ... -/
inductive Part where
  | v (r : Reg)
  | i
  | pc
  | sp
  | stack (k : Fin 16)
  | dt
  | st
  | mem (a : Nat)
  | cell (x : Fin 64) (y : Fin 32)
  | inputState
  | keyTarget
  | lastKey
  | fault
  | params
  | rndIndex
  deriving DecidableEq, Repr

/-- A piece of state has the same value in two states.  A byte of memory is compared by reading it. -/
def Unchanged (p : Part) (s t : State) : Prop :=
  match p with
  | .v r => t.getV r = s.getV r
  | .i => t.i = s.i
  | .pc => t.pc = s.pc
  | .sp => t.sp = s.sp
  | .stack k => t.stack[k.val] = s.stack[k.val]
  | .dt => t.dt = s.dt
  | .st => t.st = s.st
  | .mem a => t.byteAt a = s.byteAt a
  | .cell x y => cellAt t.fb x y = cellAt s.fb x y
  | .inputState => t.inputState = s.inputState
  | .keyTarget => t.keyTarget = s.keyTarget
  | .lastKey => t.lastKey = s.lastKey
  | .fault => t.fault = s.fault
  | .params => t.params = s.params
  | .rndIndex => t.rndIndex = s.rndIndex

/-- `t` differs from `s` at most in the named pieces of state: the frame of a change. -/
def ChangesOnly (parts : Part → Prop) (s t : State) : Prop := ∀ p, ¬ parts p → Unchanged p s t

/-! ### Fetching -/

/-- The next step fetches and runs the word `w`: the core is neither frozen nor awaiting a key, and the two bytes at PC,
both inside the address space, are those of `w`, high byte first (R110, R111). -/
def Fetches (s : State) (w : Word) : Prop :=
  s.fault = none ∧ s.inputState = .running ∧ s.pc.toNat + 1 ≤ 0xFFF ∧
    s.byteAt s.pc.toNat ++ s.byteAt (s.pc.toNat + 1) = w

/-! ### Fatal errors -/

/-- The info of an AddressingError whose access starts at `a` and leaves the address space: the lowest address out of
range (R64). -/
def lowestOutOfRange (a : Nat) : Word := BitVec.ofNat 16 (max a 0x1000)

/-- The fatal error that an instruction raises in a state, with its info: the table of R291, and no other. -/
def fatalOf (i : Instr) (s : State) : Option (FatalKind × Word) :=
  match i with
  | .ret => if s.sp.val = 0 then some (.stackUnderflow, 0) else none
  | .call _ => if s.sp.val = 16 then some (.stackOverflow, 16) else none
  | .drw _ _ n =>
    if 1 ≤ n.toNat ∧ s.i.toNat + n.toNat - 1 > 0xFFF then some (.addressingError, lowestOutOfRange s.i.toNat) else none
  | .ldBVx _ => if s.i.toNat + 2 > 0xFFF then some (.addressingError, lowestOutOfRange s.i.toNat) else none
  | .storeRegs x => if s.i.toNat + x.val > 0xFFF then some (.addressingError, lowestOutOfRange s.i.toNat) else none
  | .loadRegs x => if s.i.toNat + x.val > 0xFFF then some (.addressingError, lowestOutOfRange s.i.toNat) else none
  | .sys _ => none
  | .cls => none
  | .jp _ => none
  | .seImm _ _ => none
  | .sneImm _ _ => none
  | .seReg _ _ _ => none
  | .ldImm _ _ => none
  | .addImm _ _ => none
  | .ldReg _ _ => none
  | .orReg _ _ => none
  | .andReg _ _ => none
  | .xorReg _ _ => none
  | .addReg _ _ => none
  | .subReg _ _ => none
  | .shrReg _ _ => none
  | .subnReg _ _ => none
  | .shlReg _ _ => none
  | .sneReg _ _ _ => none
  | .ldI _ => none
  | .jpV0 _ => none
  | .rnd _ _ => none
  | .skp _ => none
  | .sknp _ => none
  | .ldVxDt _ => none
  | .ldVxK _ => none
  | .ldDtVx _ => none
  | .ldStVx _ => none
  | .addIVx _ => none
  | .ldFVx _ => none

/-! ### What each instruction may write -/

/-- The pieces of state that a completing instruction may write, from the access table of R23 and the rules of each
instruction.  A store's addresses are computed from the state it runs in. -/
def mayWrite (i : Instr) (s : State) (p : Part) : Prop :=
  match i with
  | .sys _ => False
  | .cls => ∃ x y, p = .cell x y
  | .ret => p = .pc ∨ p = .sp
  | .jp _ => p = .pc
  | .call _ => p = .pc ∨ p = .sp ∨ ∃ k : Fin 16, k.val = s.sp.val ∧ p = .stack k
  | .seImm _ _ => p = .pc
  | .sneImm _ _ => p = .pc
  | .seReg _ _ _ => p = .pc
  | .ldImm x _ => p = .v x
  | .addImm x _ => p = .v x
  | .ldReg x _ => p = .v x
  | .orReg x _ => p = .v x
  | .andReg x _ => p = .v x
  | .xorReg x _ => p = .v x
  | .addReg x _ => p = .v x ∨ p = .v vf
  | .subReg x _ => p = .v x ∨ p = .v vf
  | .shrReg x _ => p = .v x ∨ p = .v vf
  | .subnReg x _ => p = .v x ∨ p = .v vf
  | .shlReg x _ => p = .v x ∨ p = .v vf
  | .sneReg _ _ _ => p = .pc
  | .ldI _ => p = .i
  | .jpV0 _ => p = .pc
  | .rnd x _ => p = .v x
  | .drw _ _ _ => p = .v vf ∨ ∃ x y, p = .cell x y
  | .skp _ => p = .pc ∨ p = .lastKey
  | .sknp _ => p = .pc ∨ p = .lastKey
  | .ldVxDt x => p = .v x
  | .ldVxK _ => p = .inputState ∨ p = .keyTarget
  | .ldDtVx _ => p = .dt
  | .ldStVx _ => p = .st
  | .addIVx _ => p = .i
  | .ldFVx _ => p = .i
  | .ldBVx _ => ∃ k, k < 3 ∧ p = .mem (baseAddress s + k)
  | .storeRegs x => ∃ r : Reg, r ≤ x ∧ p = .mem (baseAddress s + r.val)
  | .loadRegs x => ∃ r : Reg, r ≤ x ∧ p = .v r

/-! ### Drawing -/

/-- A 1 bit of the sprite of `n` rows at `I`, drawn at the origin of the coordinate bytes `vx` and `vy`, lands on column
`cx` and row `cy` (R240). -/
def SpriteCovers (s : State) (vx vy : Byte) (n : Nat) (cx : Fin 64) (cy : Fin 32) : Prop :=
  ∃ r c, r < n ∧ c < 8 ∧ (s.byteAt (baseAddress s + r)).getLsbD (7 - c) = true ∧
    (vx.toNat % 64 + c) % 64 = cx.val ∧ (vy.toNat % 32 + r) % 32 = cy.val

/-! ### Invariants -/

/-- What a set fault latch says of the frozen state: PC is PC0, an addressing error records an address out of range, and
the stack errors record SP (R41, R290, R292). -/
def FaultSound (s : State) : Prop :=
  ∀ f, s.fault = some f → f.pc = s.pc ∧
    match f.kind with
    | .addressingError => 0x1000 ≤ f.info.toNat
    | .stackOverflow => f.info = 16 ∧ s.sp.val = 16
    | .stackUnderflow => f.info = 0 ∧ s.sp.val = 0

/-- The machine's invariant: memory keeps its canonical form, and a set fault latch describes the state it froze. -/
def Inv (s : State) : Prop := Memory.wf s.params s.mem ∧ FaultSound s

/-- The bounds that keep every addition to PC from wrapping (R27): PC is at most 0x10FE (R148), an awaiting core and
every stack entry at most 0x1000, one past the last fetchable word. -/
def PcBounded (s : State) : Prop :=
  s.pc.toNat ≤ 0x10FE ∧ (s.inputState = .awaitingKey → s.pc.toNat ≤ 0x1000) ∧
    ∀ k : Fin 16, (s.stack[k.val]).toNat ≤ 0x1000

/-! ### Safe runs -/

/-- A step is safe when it completes: it answers a next state whose fault latch is clear. -/
def SafeStep (s : State) : Prop := ∃ t, step s = .next t ∧ t.fault = none

/-- A sequence of host operations is safe when none of them leaves the core frozen. -/
def SafeRun : List HostOp → State → Prop
  | [], s => s.fault = none
  | op :: ops, s => s.fault = none ∧ ∃ t, applyOp op s = .next t ∧ SafeRun ops t

end Sys2Proof.Machine
end

