-- ==== Sys2Proof/Certificates/Slice0/Obligations.lean ====
section
/-! DEFINITION. The statements about the model.

`exec` runs in a state whose PC already holds PC0 + 2 (R13), so a handler that leaves PC alone leaves `s.pc`, and the PC0
of a fatal error is `s.pc - 2`.  The encoding clauses of the statements about one instruction say which words decode to
it; but for 1NNN, 3XNN, DXYN and FX0A those patterns are the spec's decision D29 (log entry 10). -/

open Sys2Proof Sys2Proof.Machine

/-! ### Encoding -/

/-- Decoding undoes encoding, for every well-formed instruction with every operand (R81 to R91).  The opcode map is the
spec's decision D29 (log entry 10). -/
def Obligations.DecodeUndoesEncode : Prop := ∀ i : Instr, WellFormed i = true → decode (encode i) = .instr i

/-- Encoding undoes decoding: no bit of an instruction's word is dropped, and the decoder answers well-formed
instructions only (R81 to R91; D29, log entry 10). -/
def Obligations.EncodeUndoesDecode : Prop :=
  ∀ (w : Word) (i : Instr), decode w = .instr i → WellFormed i = true ∧ encode i = w

/-- A word decodes to an instruction only if it matches that instruction's row of the opcode map (R91; D29, log entry
10). -/
def Obligations.DecodedWordMatchesItsRow : Prop :=
  ∀ (w : Word) (i : Instr), decode w = .instr i → w &&& (rowOf i).mask = (rowOf i).mtch

/-- The unrecognized encodings are exactly those of R90, their step only advances PC and ticks the timers, and it tells
the host the word (R90, R296; the sub-decoding of families E and F is the spec's decision D8, the tag D10). -/
def Obligations.UnrecognizedWordsAreNoOps : Prop :=
  (∀ w : Word, (∃ u, decode w = .unknownOpcode u) ↔
    (wordF w = 0x8 ∧ wordN w ∉ [0x0#4, 0x1#4, 0x2#4, 0x3#4, 0x4#4, 0x5#4, 0x6#4, 0x7#4, 0xE#4]) ∨
    (wordF w = 0xE ∧ wordNN w ∉ [0x9E#8, 0xA1#8]) ∨
    (wordF w = 0xF ∧ wordNN w ∉ [0x07#8, 0x0A#8, 0x15#8, 0x18#8, 0x1E#8, 0x29#8, 0x33#8, 0x55#8, 0x65#8])) ∧
  (∀ w u : Word, decode w = .unknownOpcode u → u = w) ∧
  (∀ (s : State) (w : Word), Fetches s w → decode w = .unknownOpcode w →
    ∃ t, step s = .next t ∧ t.pc = s.pc + 2 ∧ t.dt.toNat = s.dt.toNat - 1 ∧ t.st.toNat = s.st.toNat - 1 ∧
      ChangesOnly (fun p => p = .pc ∨ p = .dt ∨ p = .st ∨ p = .rndIndex) s t ∧ stepResult s = .okUnknownOpcode w)

/-- At least one word of each of the 16 families, as the opcode map writes it, decodes to the instruction it stands for
(R81, R84, R91; D29, log entry 10).  01E0 as SYS and the selection inside E and F rest on D8 (log entry 19), 5121 and
9125 on D9 (log entry 20). -/
def Obligations.SampleWordsDecode : Prop :=
  decode 0x0123 = .instr (.sys 0x123) ∧ decode 0x00E0 = .instr .cls ∧ decode 0x00EE = .instr .ret ∧
  decode 0x1400 = .instr (.jp 0x400) ∧ decode 0x2310 = .instr (.call 0x310) ∧
  decode 0x3234 = .instr (.seImm 2 0x34) ∧ decode 0x4233 = .instr (.sneImm 2 0x33) ∧
  decode 0x5121 = .instr (.seReg 1 2 1) ∧ decode 0x6A42 = .instr (.ldImm 0xA 0x42) ∧
  decode 0x7305 = .instr (.addImm 3 0x05) ∧ decode 0x821E = .instr (.shlReg 2 1) ∧
  decode 0x9125 = .instr (.sneReg 1 2 5) ∧ decode 0xA300 = .instr (.ldI 0x300) ∧
  decode 0xB300 = .instr (.jpV0 0x300) ∧ decode 0xC30F = .instr (.rnd 3 0x0F) ∧ decode 0xD253 = .instr (.drw 2 5 3) ∧
  decode 0xE29E = .instr (.skp 2) ∧ decode 0xF20A = .instr (.ldVxK 2) ∧ decode 0xF733 = .instr (.ldBVx 7) ∧
  decode 0x8008 = .unknownOpcode 0x8008 ∧ decode 0x01E0 = .instr (.sys 0x1E0)

/-! ### Control flow -/

/-- SYS NNN is every word of family 0 but 00E0 and 00EE, and a no-op (R140; D8, D11, D29: log entries 10, 11). -/
def Obligations.SysDoesNothing : Prop :=
  (∀ w : Word, wordF w = 0x0 → w ≠ 0x00E0 → w ≠ 0x00EE → decode w = .instr (.sys (wordNNN w))) ∧
  ∀ (nnn : Imm12) (s : State), exec (.sys nnn) s = .next s

/-- RET pops the return address, and underflows when the stack is empty (R141; encoding D8, D29; rollback D6). -/
def Obligations.RetPopsOrUnderflows : Prop :=
  decode 0x00EE = .instr .ret ∧
  (∀ (s : State) (k : Fin 16), s.sp.val = k.val + 1 →
    ∃ t, exec .ret s = .next t ∧ t.pc = s.stack[k.val] ∧ t.sp.val = k.val ∧
      ChangesOnly (fun p => p = .pc ∨ p = .sp) s t) ∧
  (∀ s : State, s.sp.val = 0 →
    exec .ret s = .next { s with pc := s.pc - 2, fault := some ⟨.stackUnderflow, s.pc - 2, 0⟩ })

/-- JP NNN sets PC to NNN and changes nothing else (R142). -/
def Obligations.JpSetsPc : Prop :=
  (∀ w : Word, wordF w = 0x1 → decode w = .instr (.jp (wordNNN w))) ∧
  ∀ (nnn : Imm12) (s : State),
    ∃ t, exec (.jp nnn) s = .next t ∧ t.pc.toNat = nnn.toNat ∧ ChangesOnly (fun p => p = .pc) s t

/-- CALL NNN pushes PC0 + 2 and jumps, and overflows when 16 entries are in use (R143; SP range D5, encoding D29,
rollback D6). -/
def Obligations.CallPushesOrOverflows : Prop :=
  (∀ w : Word, wordF w = 0x2 → decode w = .instr (.call (wordNNN w))) ∧
  (∀ (nnn : Imm12) (s : State) (k : Fin 16), s.sp.val = k.val →
    ∃ t, exec (.call nnn) s = .next t ∧ t.stack[k.val] = s.pc ∧ t.sp.val = k.val + 1 ∧ t.pc.toNat = nnn.toNat ∧
      ChangesOnly (fun p => p = .pc ∨ p = .sp ∨ p = .stack k) s t) ∧
  (∀ (nnn : Imm12) (s : State), s.sp.val = 16 →
    exec (.call nnn) s = .next { s with pc := s.pc - 2, fault := some ⟨.stackOverflow, s.pc - 2, 16⟩ })

/-- SE Vx, NN skips the next instruction exactly when Vx = NN: 4 in all from PC0, else 2 (R144). -/
def Obligations.SeImmSkipsOnEqual : Prop :=
  (∀ w : Word, wordF w = 0x3 → decode w = .instr (.seImm (wordX w) (wordNN w))) ∧
  (∀ (x : Reg) (nn : Byte) (s : State),
    ∃ t, exec (.seImm x nn) s = .next t ∧
      t.pc = (if (s.getV x).toNat = nn.toNat then s.pc + 2 else s.pc) ∧ ChangesOnly (fun p => p = .pc) s t) ∧
  (∀ (s : State) (w : Word), Fetches s w → wordF w = 0x3 →
    ∃ t, step s = .next t ∧ t.pc = s.pc + (if (s.getV (wordX w)).toNat = (wordNN w).toNat then 4 else 2))

/-- SNE Vx, NN skips the next instruction exactly when Vx differs from NN (R145; encoding D29). -/
def Obligations.SneImmSkipsOnDifferent : Prop :=
  (∀ w : Word, wordF w = 0x4 → decode w = .instr (.sneImm (wordX w) (wordNN w))) ∧
  ∀ (x : Reg) (nn : Byte) (s : State),
    ∃ t, exec (.sneImm x nn) s = .next t ∧
      t.pc = (if (s.getV x).toNat = nn.toNat then s.pc else s.pc + 2) ∧ ChangesOnly (fun p => p = .pc) s t

/-- SE Vx, Vy skips the next instruction exactly when Vx = Vy, whatever N holds (R146; D9, D29). -/
def Obligations.SeRegSkipsOnEqual : Prop :=
  (∀ w : Word, wordF w = 0x5 → decode w = .instr (.seReg (wordX w) (wordY w) (wordN w))) ∧
  ∀ (x y : Reg) (n : Nibble) (s : State),
    ∃ t, exec (.seReg x y n) s = .next t ∧
      t.pc = (if (s.getV x).toNat = (s.getV y).toNat then s.pc + 2 else s.pc) ∧ ChangesOnly (fun p => p = .pc) s t

/-- SNE Vx, Vy skips the next instruction exactly when Vx differs from Vy, whatever N holds (R147; D9, D29). -/
def Obligations.SneRegSkipsOnDifferent : Prop :=
  (∀ w : Word, wordF w = 0x9 → decode w = .instr (.sneReg (wordX w) (wordY w) (wordN w))) ∧
  ∀ (x y : Reg) (n : Nibble) (s : State),
    ∃ t, exec (.sneReg x y n) s = .next t ∧
      t.pc = (if (s.getV x).toNat = (s.getV y).toNat then s.pc else s.pc + 2) ∧ ChangesOnly (fun p => p = .pc) s t

/-- JP V0, NNN sets PC to V0 + NNN modulo 2^16 (R148; encoding D29). -/
def Obligations.JpV0AddsV0 : Prop :=
  (∀ w : Word, wordF w = 0xB → decode w = .instr (.jpV0 (wordNNN w))) ∧
  ∀ (nnn : Imm12) (s : State),
    ∃ t, exec (.jpV0 nnn) s = .next t ∧ t.pc.toNat = ((s.getV 0).toNat + nnn.toNat) % 65536 ∧
      ChangesOnly (fun p => p = .pc) s t

/-! ### ALU -/

/-- LD Vx, NN writes NN into Vx, no flag (R170; encoding D29). -/
def Obligations.LdImmLoadsByte : Prop :=
  (∀ w : Word, wordF w = 0x6 → decode w = .instr (.ldImm (wordX w) (wordNN w))) ∧
  ∀ (x : Reg) (nn : Byte) (s : State),
    ∃ t, exec (.ldImm x nn) s = .next t ∧ t.getV x = nn ∧ ChangesOnly (fun p => p = .v x) s t

/-- ADD Vx, NN adds modulo 256 and writes no flag (R171; encoding D29). -/
def Obligations.AddImmWrapsWithoutFlag : Prop :=
  (∀ w : Word, wordF w = 0x7 → decode w = .instr (.addImm (wordX w) (wordNN w))) ∧
  ∀ (x : Reg) (nn : Byte) (s : State),
    ∃ t, exec (.addImm x nn) s = .next t ∧ (t.getV x).toNat = ((s.getV x).toNat + nn.toNat) % 256 ∧
      ChangesOnly (fun p => p = .v x) s t

/-- LD Vx, Vy copies Vy into Vx (R172; encoding D29). -/
def Obligations.LdRegCopies : Prop :=
  (∀ w : Word, wordF w = 0x8 → wordN w = 0x0 → decode w = .instr (.ldReg (wordX w) (wordY w))) ∧
  ∀ (x y : Reg) (s : State),
    ∃ t, exec (.ldReg x y) s = .next t ∧ t.getV x = s.getV y ∧ ChangesOnly (fun p => p = .v x) s t

/-- OR, AND and XOR combine Vx and Vy bit by bit into Vx, and VF is no flag (R173, R174, R175; D12, encoding D29). -/
def Obligations.LogicOpsCombineBits : Prop :=
  (∀ w : Word, wordF w = 0x8 →
    (wordN w = 0x1 → decode w = .instr (.orReg (wordX w) (wordY w))) ∧
    (wordN w = 0x2 → decode w = .instr (.andReg (wordX w) (wordY w))) ∧
    (wordN w = 0x3 → decode w = .instr (.xorReg (wordX w) (wordY w)))) ∧
  ∀ (x y : Reg) (s : State),
    (∃ t, exec (.orReg x y) s = .next t ∧ ChangesOnly (fun p => p = .v x) s t ∧
      ∀ k, (t.getV x).getLsbD k = ((s.getV x).getLsbD k || (s.getV y).getLsbD k)) ∧
    (∃ t, exec (.andReg x y) s = .next t ∧ ChangesOnly (fun p => p = .v x) s t ∧
      ∀ k, (t.getV x).getLsbD k = ((s.getV x).getLsbD k && (s.getV y).getLsbD k)) ∧
    (∃ t, exec (.xorReg x y) s = .next t ∧ ChangesOnly (fun p => p = .v x) s t ∧
      ∀ k, (t.getV x).getLsbD k = ((s.getV x).getLsbD k != (s.getV y).getLsbD k))

/-- ADD Vx, Vy: VF is the carry, Vx the sum modulo 256, and for X = F the flag remains (R176, R183; D13, encoding
D29). -/
def Obligations.AddRegSetsCarry : Prop :=
  (∀ w : Word, wordF w = 0x8 → wordN w = 0x4 → decode w = .instr (.addReg (wordX w) (wordY w))) ∧
  ∀ (x y : Reg) (s : State),
    ∃ t, exec (.addReg x y) s = .next t ∧
      (t.getV vf).toNat = (if (s.getV x).toNat + (s.getV y).toNat > 255 then 1 else 0) ∧
      (x ≠ vf → (t.getV x).toNat = ((s.getV x).toNat + (s.getV y).toNat) % 256) ∧
      ChangesOnly (fun p => p = .v x ∨ p = .v vf) s t

/-- SUB Vx, Vy: VF is 0 on borrow and 1 otherwise, Vx the difference modulo 256, and for X = F the flag remains (R177,
R183; D13, encoding D29). -/
def Obligations.SubRegSetsNotBorrow : Prop :=
  (∀ w : Word, wordF w = 0x8 → wordN w = 0x5 → decode w = .instr (.subReg (wordX w) (wordY w))) ∧
  ∀ (x y : Reg) (s : State),
    ∃ t, exec (.subReg x y) s = .next t ∧
      (t.getV vf).toNat = (if (s.getV x).toNat < (s.getV y).toNat then 0 else 1) ∧
      (x ≠ vf → (t.getV x).toNat = ((s.getV x).toNat + 256 - (s.getV y).toNat) % 256) ∧
      ChangesOnly (fun p => p = .v x ∨ p = .v vf) s t

/-- SHR Vx, Vy: Vx is Vy shifted right by one, VF the bit shifted out, and for X = F the flag remains (R178, R183; D13,
encoding D29). -/
def Obligations.ShrShiftsVyRight : Prop :=
  (∀ w : Word, wordF w = 0x8 → wordN w = 0x6 → decode w = .instr (.shrReg (wordX w) (wordY w))) ∧
  ∀ (x y : Reg) (s : State),
    ∃ t, exec (.shrReg x y) s = .next t ∧ (t.getV vf).toNat = (s.getV y).toNat % 2 ∧
      (x ≠ vf → (t.getV x).toNat = (s.getV y).toNat / 2) ∧ ChangesOnly (fun p => p = .v x ∨ p = .v vf) s t

/-- SUBN Vx, Vy: VF is 0 on borrow of Vy - Vx and 1 otherwise, Vx that difference modulo 256, and for X = F the flag
remains (R179, R183; D13, encoding D29). -/
def Obligations.SubnRegSetsNotBorrow : Prop :=
  (∀ w : Word, wordF w = 0x8 → wordN w = 0x7 → decode w = .instr (.subnReg (wordX w) (wordY w))) ∧
  ∀ (x y : Reg) (s : State),
    ∃ t, exec (.subnReg x y) s = .next t ∧
      (t.getV vf).toNat = (if (s.getV y).toNat < (s.getV x).toNat then 0 else 1) ∧
      (x ≠ vf → (t.getV x).toNat = ((s.getV y).toNat + 256 - (s.getV x).toNat) % 256) ∧
      ChangesOnly (fun p => p = .v x ∨ p = .v vf) s t

/-- SHL Vx, Vy: Vx is Vy shifted left by one, VF the bit shifted out, and for X = F the flag remains (R180, R183; D13,
encoding D29). -/
def Obligations.ShlShiftsVyLeft : Prop :=
  (∀ w : Word, wordF w = 0x8 → wordN w = 0xE → decode w = .instr (.shlReg (wordX w) (wordY w))) ∧
  ∀ (x y : Reg) (s : State),
    ∃ t, exec (.shlReg x y) s = .next t ∧ (t.getV vf).toNat = (s.getV y).toNat / 128 ∧
      (x ≠ vf → (t.getV x).toNat = (s.getV y).toNat * 2 % 256) ∧ ChangesOnly (fun p => p = .v x ∨ p = .v vf) s t

/-- RND Vx, NN stores the byte offered to the step under the mask NN, whatever that byte is (R181; D19, log entry 2;
encoding D29). -/
def Obligations.RndMasksOfferedByte : Prop :=
  (∀ w : Word, wordF w = 0xC → decode w = .instr (.rnd (wordX w) (wordNN w))) ∧
  ∀ (x : Reg) (nn : Byte) (s : State),
    ∃ t, exec (.rnd x nn) s = .next t ∧
      (∀ k, (t.getV x).getLsbD k = ((offeredByte s).getLsbD k && nn.getLsbD k)) ∧
      ChangesOnly (fun p => p = .v x) s t

/-! ### Index register and memory transfers -/

/-- LD I, NNN (R210; encoding D29). -/
def Obligations.LdISetsIndex : Prop :=
  (∀ w : Word, wordF w = 0xA → decode w = .instr (.ldI (wordNNN w))) ∧
  ∀ (nnn : Imm12) (s : State),
    ∃ t, exec (.ldI nnn) s = .next t ∧ t.i.toNat = nnn.toNat ∧ ChangesOnly (fun p => p = .i) s t

/-- ADD I, Vx adds modulo 2^16 and writes no flag (R211; encoding D29). -/
def Obligations.AddIWrapsWithoutFlag : Prop :=
  (∀ w : Word, wordF w = 0xF → wordNN w = 0x1E → decode w = .instr (.addIVx (wordX w))) ∧
  ∀ (x : Reg) (s : State),
    ∃ t, exec (.addIVx x) s = .next t ∧ t.i.toNat = (s.i.toNat + (s.getV x).toNat) % 65536 ∧
      ChangesOnly (fun p => p = .i) s t

/-- LD F, Vx sets I to five times the full byte Vx (R212; D16, encoding D29). -/
def Obligations.LdFPointsToGlyph : Prop :=
  (∀ w : Word, wordF w = 0xF → wordNN w = 0x29 → decode w = .instr (.ldFVx (wordX w))) ∧
  ∀ (x : Reg) (s : State),
    ∃ t, exec (.ldFVx x) s = .next t ∧ t.i.toNat = 5 * (s.getV x).toNat ∧ ChangesOnly (fun p => p = .i) s t

/-- LD B, Vx stores the three digits of Vx at I, I+1, I+2, or raises AddressingError with the lowest address out of
range and stores nothing (R213; D6, D7, encoding D29). -/
def Obligations.LdBStoresDigits : Prop :=
  (∀ w : Word, wordF w = 0xF → wordNN w = 0x33 → decode w = .instr (.ldBVx (wordX w))) ∧
  (∀ (x : Reg) (s : State), baseAddress s + 2 ≤ 0xFFF →
    ∃ t, exec (.ldBVx x) s = .next t ∧
      (t.byteAt (baseAddress s)).toNat = (s.getV x).toNat / 100 ∧
      (t.byteAt (baseAddress s + 1)).toNat = (s.getV x).toNat / 10 % 10 ∧
      (t.byteAt (baseAddress s + 2)).toNat = (s.getV x).toNat % 10 ∧
      ChangesOnly (fun p => ∃ k, k < 3 ∧ p = .mem (baseAddress s + k)) s t) ∧
  (∀ (x : Reg) (s : State), baseAddress s + 2 > 0xFFF →
    exec (.ldBVx x) s =
      .next { s with pc := s.pc - 2, fault := some ⟨.addressingError, s.pc - 2, lowestOutOfRange (baseAddress s)⟩ })

/-- LD [I], Vx stores V0..Vx at I, I+1, .., leaving I alone, or raises AddressingError and stores nothing (R214; D6, D7,
D15, encoding D29). -/
def Obligations.StoreRegsStoresBlock : Prop :=
  (∀ w : Word, wordF w = 0xF → wordNN w = 0x55 → decode w = .instr (.storeRegs (wordX w))) ∧
  (∀ (x : Reg) (s : State), baseAddress s + x.val ≤ 0xFFF →
    ∃ t, exec (.storeRegs x) s = .next t ∧
      (∀ r : Reg, r ≤ x → t.byteAt (baseAddress s + r.val) = s.getV r) ∧
      ChangesOnly (fun p => ∃ r : Reg, r ≤ x ∧ p = .mem (baseAddress s + r.val)) s t) ∧
  (∀ (x : Reg) (s : State), baseAddress s + x.val > 0xFFF →
    exec (.storeRegs x) s =
      .next { s with pc := s.pc - 2, fault := some ⟨.addressingError, s.pc - 2, lowestOutOfRange (baseAddress s)⟩ })

/-- LD Vx, [I] loads V0..Vx from I, I+1, .., leaving I and memory alone, or raises AddressingError and loads nothing
(R215; D6, D7, D15, encoding D29). -/
def Obligations.LoadRegsLoadsBlock : Prop :=
  (∀ w : Word, wordF w = 0xF → wordNN w = 0x65 → decode w = .instr (.loadRegs (wordX w))) ∧
  (∀ (x : Reg) (s : State), baseAddress s + x.val ≤ 0xFFF →
    ∃ t, exec (.loadRegs x) s = .next t ∧
      (∀ r : Reg, r ≤ x → t.getV r = s.byteAt (baseAddress s + r.val)) ∧
      ChangesOnly (fun p => ∃ r : Reg, r ≤ x ∧ p = .v r) s t) ∧
  (∀ (x : Reg) (s : State), baseAddress s + x.val > 0xFFF →
    exec (.loadRegs x) s =
      .next { s with pc := s.pc - 2, fault := some ⟨.addressingError, s.pc - 2, lowestOutOfRange (baseAddress s)⟩ })

/-- A block store followed by a block load with the same I and X restores V0..Vx, whatever the registers held in
between (R215, derived there). -/
def Obligations.BlockLoadRestoresBlockStore : Prop :=
  ∀ (x : Reg) (s t u : State), baseAddress s + x.val ≤ 0xFFF → exec (.storeRegs x) s = .next t →
    u.i = t.i → (∀ a, u.byteAt a = t.byteAt a) →
    ∃ u', exec (.loadRegs x) u = .next u' ∧ ∀ r : Reg, r ≤ x → u'.getV r = s.getV r

/-! ### Framebuffer -/

/-- CLS clears every cell and changes nothing else (R241; encoding D8, D29). -/
def Obligations.ClsClearsScreen : Prop :=
  decode 0x00E0 = .instr .cls ∧
  ∀ s : State, ∃ t, exec .cls s = .next t ∧ (∀ x y, cellAt t.fb x y = false) ∧
    ChangesOnly (fun p => ∃ x y, p = .cell x y) s t

/-- DRW toggles exactly the cells under the sprite's 1 bits and sets VF to the collision, or raises AddressingError and
draws nothing (R240, R242; D6, D7, D14). -/
def Obligations.DrwTogglesCoveredCells : Prop :=
  (∀ w : Word, wordF w = 0xD → decode w = .instr (.drw (wordX w) (wordY w) (wordN w))) ∧
  (∀ (x y : Reg) (n : Nibble) (s : State), (n = 0 ∨ baseAddress s + n.toNat - 1 ≤ 0xFFF) →
    ∃ t, exec (.drw x y n) s = .next t ∧
      (∀ cx cy, SpriteCovers s (s.getV x) (s.getV y) n.toNat cx cy → cellAt t.fb cx cy = !cellAt s.fb cx cy) ∧
      (∀ cx cy, ¬ SpriteCovers s (s.getV x) (s.getV y) n.toNat cx cy → cellAt t.fb cx cy = cellAt s.fb cx cy) ∧
      ((∃ cx cy, SpriteCovers s (s.getV x) (s.getV y) n.toNat cx cy ∧ cellAt s.fb cx cy = true) → t.getV vf = 1) ∧
      ((¬ ∃ cx cy, SpriteCovers s (s.getV x) (s.getV y) n.toNat cx cy ∧ cellAt s.fb cx cy = true) → t.getV vf = 0) ∧
      ChangesOnly (fun p => p = .v vf ∨ ∃ cx cy, p = .cell cx cy) s t) ∧
  (∀ (x y : Reg) (n : Nibble) (s : State), 1 ≤ n.toNat → baseAddress s + n.toNat - 1 > 0xFFF →
    exec (.drw x y n) s =
      .next { s with pc := s.pc - 2, fault := some ⟨.addressingError, s.pc - 2, lowestOutOfRange (baseAddress s)⟩ })

/-- Drawing the same sprite twice at the same origin, with no cell changed in between, restores every cell, and the
second draw sets VF exactly when at least one covered cell was 0 before the first (R243, derived there from R242).  Only
the origins modulo 64 and 32 must agree, so either draw may take its origin from VF, which the first draw writes; the
reading of the origin before that write and the wrap are the spec's decision D14 (log entry 23). -/
def Obligations.SecondDrawRestoresScreen : Prop :=
  ∀ (x y x' y' : Reg) (n : Nibble) (s t s' u : State), s.fault = none →
    exec (.drw x y n) s = .next t → t.fault = none →
    (∀ cx cy, cellAt s'.fb cx cy = cellAt t.fb cx cy) → s'.i = s.i → (∀ a, s'.byteAt a = s.byteAt a) →
    (s'.getV x').toNat % 64 = (s.getV x).toNat % 64 → (s'.getV y').toNat % 32 = (s.getV y).toNat % 32 →
    exec (.drw x' y' n) s' = .next u →
    (∀ cx cy, cellAt u.fb cx cy = cellAt s.fb cx cy) ∧
    (u.getV vf = 1 ↔ ∃ cx cy, SpriteCovers s (s.getV x) (s.getV y) n.toNat cx cy ∧ cellAt s.fb cx cy = false)

/-! ### Keys and timers -/

/-- SKP skips and keeps the key on a match, and consumes the key without skipping otherwise (R260; encoding D8, D29). -/
def Obligations.SkpSkipsOnTrackedKey : Prop :=
  (∀ w : Word, wordF w = 0xE → wordNN w = 0x9E → decode w = .instr (.skp (wordX w))) ∧
  (∀ (x : Reg) (s : State) (k : Key), s.lastKey = some k → (s.getV x).toNat = k.toNat →
    ∃ t, exec (.skp x) s = .next t ∧ t.pc = s.pc + 2 ∧ ChangesOnly (fun p => p = .pc) s t) ∧
  (∀ (x : Reg) (s : State), (∀ k, s.lastKey = some k → (s.getV x).toNat ≠ k.toNat) →
    ∃ t, exec (.skp x) s = .next t ∧ t.lastKey = none ∧ ChangesOnly (fun p => p = .lastKey) s t)

/-- SKNP does nothing on a match, and skips and consumes the key otherwise (R261; encoding D8, D29). -/
def Obligations.SknpSkipsOnOtherKey : Prop :=
  (∀ w : Word, wordF w = 0xE → wordNN w = 0xA1 → decode w = .instr (.sknp (wordX w))) ∧
  (∀ (x : Reg) (s : State) (k : Key), s.lastKey = some k → (s.getV x).toNat = k.toNat →
    exec (.sknp x) s = .next s) ∧
  (∀ (x : Reg) (s : State), (∀ k, s.lastKey = some k → (s.getV x).toNat ≠ k.toNat) →
    ∃ t, exec (.sknp x) s = .next t ∧ t.pc = s.pc + 2 ∧ t.lastKey = none ∧
      ChangesOnly (fun p => p = .pc ∨ p = .lastKey) s t)

/-- LD Vx, DT copies DT, and in a step the register gets the value from before the step's tick (R262, R113; encoding
D8, D29). -/
def Obligations.LdVxDtReadsBeforeTick : Prop :=
  (∀ w : Word, wordF w = 0xF → wordNN w = 0x07 → decode w = .instr (.ldVxDt (wordX w))) ∧
  (∀ (x : Reg) (s : State),
    ∃ t, exec (.ldVxDt x) s = .next t ∧ t.getV x = s.dt ∧ ChangesOnly (fun p => p = .v x) s t) ∧
  (∀ (x : Reg) (s : State), Fetches s (encode (.ldVxDt x)) →
    ∃ t, step s = .next t ∧ t.getV x = s.dt ∧ t.dt.toNat = s.dt.toNat - 1)

/-- LD Vx, K enters AwaitingKey with target X and writes nothing else (R265; D32, sub-decoding D8). -/
def Obligations.LdVxKAwaitsKey : Prop :=
  (∀ w : Word, wordF w = 0xF → wordNN w = 0x0A → decode w = .instr (.ldVxK (wordX w))) ∧
  ∀ (x : Reg) (s : State),
    ∃ t, exec (.ldVxK x) s = .next t ∧ t.inputState = .awaitingKey ∧ t.keyTarget = x ∧
      ChangesOnly (fun p => p = .inputState ∨ p = .keyTarget) s t

/-- LD DT, Vx copies Vx to DT, and the step that does so already ticks it once (R263, R113; encoding D8, D29). -/
def Obligations.LdDtVxIsTickedAtOnce : Prop :=
  (∀ w : Word, wordF w = 0xF → wordNN w = 0x15 → decode w = .instr (.ldDtVx (wordX w))) ∧
  (∀ (x : Reg) (s : State),
    ∃ t, exec (.ldDtVx x) s = .next t ∧ t.dt = s.getV x ∧ ChangesOnly (fun p => p = .dt) s t) ∧
  (∀ (x : Reg) (s : State), Fetches s (encode (.ldDtVx x)) →
    ∃ t, step s = .next t ∧ t.dt.toNat = (s.getV x).toNat - 1)

/-- LD ST, Vx copies Vx to ST, the step that does so already ticks it once, and the sound output is then on exactly when
Vx was at least 2 (R264, R302; D22, encoding D8, D29). -/
def Obligations.LdStVxIsTickedAtOnce : Prop :=
  (∀ w : Word, wordF w = 0xF → wordNN w = 0x18 → decode w = .instr (.ldStVx (wordX w))) ∧
  (∀ (x : Reg) (s : State),
    ∃ t, exec (.ldStVx x) s = .next t ∧ t.st = s.getV x ∧ ChangesOnly (fun p => p = .st) s t) ∧
  (∀ (x : Reg) (s : State), Fetches s (encode (.ldStVx x)) →
    ∃ t, step s = .next t ∧ t.st.toNat = (s.getV x).toNat - 1 ∧
      (soundActive t = true ↔ 2 ≤ (s.getV x).toNat))

/-! ### The step -/

/-- A step fetches the big-endian word at PC and runs its instruction with PC already advanced by 2; a fetch that leaves
the address space runs no handler and does not advance PC (R111).  What the handler leaves is ticked, unless it raised;
the counter of the free random bytes is the model's own (log entry 2). -/
def Obligations.StepRunsDecodedInstruction : Prop :=
  (∀ (s : State) (w : Word) (i : Instr) (t : State), Fetches s w → decode w = .instr i →
    exec i { s with pc := s.pc + 2 } = .next t →
    (t.fault = none → step s = .next { t with
      dt := BitVec.ofNat 8 (t.dt.toNat - 1), st := BitVec.ofNat 8 (t.st.toNat - 1), rndIndex := t.rndIndex + 1 }) ∧
    (t.fault ≠ none → step s = .next t)) ∧
  (∀ s : State, s.fault = none → s.inputState = .running → s.pc.toNat + 1 > 0xFFF →
    ∃ f, step s = .next { s with fault := some f } ∧ f.kind = .addressingError)

/-- `MemRead` and `MemWrite` of one byte: AddressingError above 0xFFF, else the byte, or a write that the next read sees
and that changes no other byte and no other state (R61). -/
def Obligations.ByteAccessesReadAndWrite : Prop :=
  (∀ (s : State) (a : Nat), a > 0xFFF → memRead s a = .error a) ∧
  (∀ (s : State) (a : Nat), a ≤ 0xFFF → memRead s a = .ok (s.byteAt a)) ∧
  (∀ (s : State) (a : Nat) (b : Byte), a > 0xFFF → memWrite s a b = .error a) ∧
  (∀ (s : State) (a : Nat) (b : Byte), a ≤ 0xFFF →
    ∃ t, memWrite s a b = .ok t ∧ memRead t a = .ok b ∧ ChangesOnly (fun p => p = .mem a) s t)

/-- While the fault latch is set, `step` and `press_key` change nothing and say Halted and Ignored, the probes still
answer, and only `reset` clears the latch (R122; D6). -/
def Obligations.FrozenUntilReset : Prop :=
  ∀ (s : State) (f : FaultRecord), s.fault = some f →
    step s = .next s ∧ stepResult s = .halted ∧
    (∀ k, pressKey k s = s ∧ opResult (.pressKey k) s = .ignored) ∧
    opResult .faultStatus s = .status (some f) ∧
    (∀ op t, op ≠ .reset → applyOp op s = .next t → t.fault = some f) ∧
    (∃ t, applyOp .reset s = .next t ∧ t.fault = none)

/-- While AwaitingKey a step fetches, decodes and executes nothing and leaves PC: it only ticks the timers, whatever PC
is, so it raises nothing (R114).  (`rndIndex` is the model's own counter, log entry 2.) -/
def Obligations.AwaitingStepOnlyTicks : Prop :=
  ∀ s : State, s.fault = none → s.inputState = .awaitingKey →
    ∃ t, step s = .next t ∧ t.dt.toNat = s.dt.toNat - 1 ∧ t.st.toNat = s.st.toNat - 1 ∧
      ChangesOnly (fun p => p = .dt ∨ p = .st ∨ p = .rndIndex) s t

/-- A step always answers a next state, and one that raises a fatal error leaves everything but the latch as it was,
with PC0 recorded (R126, R292; the rollback is the spec's decision D6). -/
def Obligations.FatalErrorRollsBackStep : Prop :=
  ∀ s : State, ∃ t, step s = .next t ∧
    ∀ f, s.fault = none → t.fault = some f → t = { s with fault := some f } ∧ f.pc = s.pc

/-- Each instruction raises exactly the fatal error of the table of R291, with the info of R290, and the fetch raises
exactly when PC0 + 1 > 0xFFF (R291; info D7, D35). -/
def Obligations.FatalErrorsAreTheTabledOnes : Prop :=
  (∀ (i : Instr) (s : State), s.fault = none →
    ∃ t, exec i s = .next t ∧ t.fault = (fatalOf i s).map fun e => ⟨e.1, s.pc - 2, e.2⟩) ∧
  (∀ s : State, s.fault = none → s.inputState = .running → s.pc.toNat + 1 > 0xFFF →
    step s = .next { s with fault := some ⟨.addressingError, s.pc, lowestOutOfRange s.pc.toNat⟩ })

/-- No instruction writes anything but what its own rule gives it (R140 to R148, R170 to R181, R210 to R215, R241, R242,
R260 to R265): a completing instruction writes within `mayWrite`, and a raising one only PC (back to PC0) and the latch
(R126, R291; D6, log entry 7).  That OR, AND and XOR leave VF alone is D12 (log entry 21), that the block transfers leave
I alone D15 (entry 24), that FX0A leaves LAST_KEY alone D32 (entry 26), that RET leaves its entry alone D31 (entry 33). -/
def Obligations.InstructionsWriteOnlyTheirTargets : Prop :=
  ∀ (i : Instr) (s t : State), exec i s = .next t →
    (fatalOf i s = none → ChangesOnly (mayWrite i s) s t) ∧
    (fatalOf i s ≠ none → ChangesOnly (fun p => p = .pc ∨ p = .fault) s t)

/-- Only the instructions that R22 names change VF without naming it as their destination. -/
def Obligations.OnlyNamedInstructionsChangeVf : Prop :=
  ∀ (i : Instr) (s t : State), exec i s = .next t → t.getV vf ≠ s.getV vf →
    (∃ x y, i = .addReg x y ∨ i = .subReg x y ∨ i = .shrReg x y ∨ i = .subnReg x y ∨ i = .shlReg x y) ∨
    (∃ x y n, i = .drw x y n) ∨
    (∃ nn, i = .ldImm vf nn ∨ i = .addImm vf nn ∨ i = .rnd vf nn) ∨
    (∃ y, i = .ldReg vf y ∨ i = .orReg vf y ∨ i = .andReg vf y ∨ i = .xorReg vf y) ∨
    i = .ldVxDt vf ∨ i = .loadRegs vf

/-- Both timers go down by one at the end of every step that does not fault, stopping at 0, after the step's instruction;
a faulting step and a frozen one do not tick (R300). -/
def Obligations.TimersTickOncePerStep : Prop :=
  ∀ s t : State, step s = .next t →
    (t.fault = none → (∀ w x, Fetches s w → decode w ≠ .instr (.ldDtVx x)) → t.dt.toNat = s.dt.toNat - 1) ∧
    (t.fault = none → (∀ w x, Fetches s w → decode w ≠ .instr (.ldStVx x)) → t.st.toNat = s.st.toNat - 1) ∧
    (∀ w x, Fetches s w → decode w = .instr (.ldDtVx x) → t.dt.toNat = (s.getV x).toNat - 1) ∧
    (∀ w x, Fetches s w → decode w = .instr (.ldStVx x) → t.st.toNat = (s.getV x).toNat - 1) ∧
    (t.fault ≠ none → t.dt = s.dt ∧ t.st = s.st)

/-- The input state is Running after reset, becomes AwaitingKey only in a step that runs FX0A, becomes Running only by a
key press (or reset), and a step of an awaiting core fetches nothing: it touches the timers alone, and does the same
whatever memory holds (R35, R114).  That only a key press on a core that is not frozen resumes it is D6 (R116, log entry
7), the way out by reset D36 (R123, log entry 36), the target X is R36 and R265, and that the low byte selects FX0A D8
(log entry 19).  (`rndIndex` is the model's own counter, log entry 2.) -/
def Obligations.InputStateChangesOnlyByFx0aAndKey : Prop :=
  State.reset.inputState = .running ∧
  (∀ (op : HostOp) (s t : State), applyOp op s = .next t →
    s.inputState = .running → t.inputState = .awaitingKey →
    op = .step ∧ ∃ w x, Fetches s w ∧ decode w = .instr (.ldVxK x) ∧ t.keyTarget = x) ∧
  (∀ (op : HostOp) (s t : State), applyOp op s = .next t →
    s.inputState = .awaitingKey → t.inputState = .running → (∃ k, op = .pressKey k ∧ s.fault = none) ∨ op = .reset) ∧
  (∀ s t : State, s.inputState = .awaitingKey → step s = .next t →
    ChangesOnly (fun p => p = .dt ∨ p = .st ∨ p = .rndIndex) s t ∧
    ∀ m, step (s.setMem m) = .next (t.setMem m))

/-- A RET that finds the stack a CALL left restores SP and sets PC to the address after the CALL, whatever PC is in
between (R149; C9). -/
def Obligations.RetUndoesCall : Prop :=
  ∀ (nnn : Imm12) (s t u : State), s.sp.val < 16 → exec (.call nnn) s = .next t → u.sp = t.sp → u.stack = t.stack →
    ∃ u', exec .ret u = .next u' ∧ u'.pc = s.pc ∧ u'.sp = s.sp

/-- Code that a block store has just written is what the next fetch of those addresses reads, in big-endian order (R75,
R63). -/
def Obligations.FetchSeesBlockStore : Prop :=
  ∀ (x r q : Reg) (s t : State), baseAddress s + x.val ≤ 0xFFF → q.val = r.val + 1 → q ≤ x →
    exec (.storeRegs x) s = .next t → t.pc.toNat = baseAddress s + r.val →
    fetchWord t = .ok (s.getV r ++ s.getV q)

/-! ### The host's operations -/

/-- `press_key`: ignored when frozen; it sets LAST_KEY; an awaiting core gets the key in V[KEY_TARGET], runs again, and
its PC moves by the parameter AWAIT_RESUME_PC_ADVANCE, whichever of its two values that has (R116, R117; D6, D17,
D18). -/
def Obligations.PressKeyDeliversKey : Prop :=
  (∀ (k : Key) (s : State), s.fault ≠ none → pressKey k s = s) ∧
  (∀ (k : Key) (s : State), s.fault = none → s.inputState = .running → pressKey k s = { s with lastKey := some k }) ∧
  (∀ (k : Key) (s : State), s.fault = none → s.inputState = .awaitingKey →
    (pressKey k s).lastKey = some k ∧ ((pressKey k s).getV s.keyTarget).toNat = k.toNat ∧
    (pressKey k s).inputState = .running ∧
    (pressKey k s).pc = s.pc + (match s.params.resumeAdvance with | .zero => 0 | .two => 2) ∧
    ChangesOnly (fun p => p = .lastKey ∨ p = .v s.keyTarget ∨ p = .inputState ∨ p = .pc) s (pressKey k s))

/-- `load_program` copies the image to 0x200 on and changes nothing else; an image of more than 3584 bytes is refused
whole (R115; D21). -/
def Obligations.LoadProgramCopiesImage : Prop :=
  (∀ (bytes : List Byte) (s : State), bytes.length > 3584 →
    loadProgram bytes s = s ∧ opResult (.loadProgram bytes) s = .refused) ∧
  (∀ (bytes : List Byte) (s : State), bytes.length ≤ 3584 →
    opResult (.loadProgram bytes) s = .ok ∧
    (∀ k b, bytes[k]? = some b → (loadProgram bytes s).byteAt (0x200 + k) = b) ∧
    ChangesOnly (fun p => ∃ k, k < bytes.length ∧ p = .mem (0x200 + k)) s (loadProgram bytes s))

/-- The probes: the framebuffer row-major, whether a key is awaited, the latch, the sound level; none changes state
(R118, R119, R120, R302; D6, D22, D23). -/
def Obligations.ProbesOnlyRead : Prop :=
  ∀ s : State,
    ((framebufferSnapshot s).length = 2048 ∧
      ∀ (x : Fin 64) (y : Fin 32), (framebufferSnapshot s)[y.val * 64 + x.val]? = some (cellAt s.fb x y)) ∧
    (isAwaitingKey s = true ↔ s.inputState = .awaitingKey) ∧ faultStatus s = s.fault ∧
    (soundActive s = true ↔ s.st.toNat ≠ 0) ∧
    ∀ op, op = .framebufferSnapshot ∨ op = .isAwaitingKey ∨ op = .faultStatus ∨ op = .soundActive →
      applyOp op s = .next s

/-- What a step tells the host: Halted when frozen, the recorded error when it raises, Ok when it runs an instruction
that does not raise or when it waits (R110; D34). -/
def Obligations.StepReportsItsResult : Prop :=
  (∀ s : State, s.fault ≠ none → stepResult s = .halted) ∧
  (∀ (s t : State) (f : FaultRecord), s.fault = none → step s = .next t → t.fault = some f →
    stepResult s = .error f) ∧
  (∀ (s t : State) (w : Word) (i : Instr), Fetches s w → decode w = .instr i → step s = .next t → t.fault = none →
    stepResult s = .ok) ∧
  (∀ s : State, s.fault = none → s.inputState = .awaitingKey → stepResult s = .ok)

/-! ### Reset and the invariants -/

/-- The state after reset, for every value of the parameters, and that the invariants hold there.  PC, the font's place
and Running are the source's; the other values are the spec's decision D2 (R42, R330; log entries 3, 5, 6). -/
def Obligations.ResetState : Prop :=
  (∀ (p : Params) (n : Nat), (State.resetWith p n).pc = 0x200 ∧ (State.resetWith p n).inputState = .running ∧
    (∀ a (h : a < 80), (State.resetWith p n).byteAt a = p.fontRom[a]) ∧
    (∀ a, 80 ≤ a → (State.resetWith p n).byteAt a = 0) ∧
    (∀ r, (State.resetWith p n).getV r = 0) ∧ (State.resetWith p n).i = 0 ∧ (State.resetWith p n).sp.val = 0 ∧
    (∀ k : Fin 16, (State.resetWith p n).stack[k.val] = 0) ∧ (State.resetWith p n).dt = 0 ∧
    (State.resetWith p n).st = 0 ∧ (∀ x y, cellAt (State.resetWith p n).fb x y = false) ∧
    (State.resetWith p n).keyTarget = 0 ∧ (State.resetWith p n).lastKey = none ∧
    (State.resetWith p n).fault = none ∧ Inv (State.resetWith p n) ∧ PcBounded (State.resetWith p n)) ∧
  State.reset = State.resetWith defaultParams 0 ∧
  (∀ s : State, applyOp .reset s = .next (State.resetWith s.params s.rndIndex))

/-- Every step, from any state that meets the invariant, keeps it: memory stays in canonical form inside [0, 4095], and a
set latch describes the frozen state (R41, R60, R290, R292). -/
def Obligations.StepKeepsInvariant : Prop := ∀ s t : State, Inv s → step s = .next t → Inv t

/-- So does every other operation of the host (R115, R116, R121, R123; D21). -/
def Obligations.HostOperationsKeepInvariant : Prop :=
  ∀ (op : HostOp) (s t : State), op ≠ .step → Inv s → applyOp op s = .next t → Inv t

/-- The bounds on PC and on the return addresses are kept by every host operation, and under them no addition to PC
wraps: not the fetch's, not the fetch's and a skip's together, not a resumption's (R27; D30). -/
def Obligations.PcAdditionsNeverWrap : Prop :=
  (∀ (op : HostOp) (s t : State), PcBounded s → applyOp op s = .next t → PcBounded t) ∧
  (∀ s : State, PcBounded s → (s.pc + 4).toNat = s.pc.toNat + 4)
end

