-- ==== Sys2Proof/Laws/Decode.lean ====
section
/-! SUPPORT. What each field of an assembled word is, and the word its fields make. -/

namespace Sys2Proof

theorem toNat_append {n m : Nat} (a : BitVec n) (b : BitVec m) : (a ++ b).toNat = a.toNat * 2 ^ m + b.toNat := by
  rw [BitVec.toNat_append, ← Nat.shiftLeft_add_eq_or_of_lt b.isLt, Nat.shiftLeft_eq]

theorem formNNN_toNat (f : Nibble) (nnn : Imm12) : (formNNN f nnn).toNat = f.toNat * 4096 + nnn.toNat :=
  toNat_append f nnn

theorem formXNN_toNat (f : Nibble) (x : Reg) (nn : Byte) :
    (formXNN f x nn).toNat = f.toNat * 4096 + x.val * 256 + nn.toNat := by
  have hx : (BitVec.ofNat 4 x.val).toNat = x.val := Nat.mod_eq_of_lt x.isLt
  have h := toNat_append (f ++ BitVec.ofNat 4 x.val) nn
  rw [toNat_append f, hx] at h
  exact h.trans (by omega)

theorem formXYN_toNat (f : Nibble) (x y : Reg) (n : Nibble) :
    (formXYN f x y n).toNat = f.toNat * 4096 + x.val * 256 + y.val * 16 + n.toNat := by
  have hx : (BitVec.ofNat 4 x.val).toNat = x.val := Nat.mod_eq_of_lt x.isLt
  have hy : (BitVec.ofNat 4 y.val).toNat = y.val := Nat.mod_eq_of_lt y.isLt
  have h := toNat_append (f ++ BitVec.ofNat 4 x.val ++ BitVec.ofNat 4 y.val) n
  rw [toNat_append (f ++ BitVec.ofNat 4 x.val), toNat_append f, hx, hy] at h
  exact h.trans (by omega)

theorem wordOfBytes_toNat (hi lo : Byte) : (wordOfBytes hi lo).toNat = hi.toNat * 256 + lo.toNat :=
  toNat_append hi lo

/-- The two bytes of a word make the word again (R62, R80). -/
theorem wordOfBytes_bytesOfWord (w : Word) : wordOfBytes ((w >>> 8).setWidth 8) (w.setWidth 8) = w := by
  apply BitVec.eq_of_toNat_eq
  have := w.isLt
  simp [wordOfBytes_toNat, Nat.shiftRight_eq_div_pow]
  omega

/-! ### The fields of the three shapes -/

@[simp] theorem family_formNNN (f : Nibble) (nnn : Imm12) : family (formNNN f nnn) = f.toNat := by
  have := nnn.isLt
  simp only [family, formNNN_toNat]
  omega

@[simp] theorem fieldNNN_formNNN (f : Nibble) (nnn : Imm12) : fieldNNN (formNNN f nnn) = nnn := by
  apply BitVec.eq_of_toNat_eq
  have := nnn.isLt
  simp only [fieldNNN, formNNN_toNat, BitVec.toNat_setWidth]
  omega

@[simp] theorem family_formXNN (f : Nibble) (x : Reg) (nn : Byte) : family (formXNN f x nn) = f.toNat := by
  have := x.isLt
  have := nn.isLt
  simp only [family, formXNN_toNat]
  omega

@[simp] theorem fieldX_formXNN (f : Nibble) (x : Reg) (nn : Byte) : fieldX (formXNN f x nn) = x := by
  have := x.isLt
  have := nn.isLt
  apply Fin.ext
  simp only [fieldX, formXNN_toNat]
  omega

@[simp] theorem fieldNN_formXNN (f : Nibble) (x : Reg) (nn : Byte) : fieldNN (formXNN f x nn) = nn := by
  apply BitVec.eq_of_toNat_eq
  have := nn.isLt
  simp only [fieldNN, formXNN_toNat, BitVec.toNat_setWidth]
  omega

@[simp] theorem family_formXYN (f : Nibble) (x y : Reg) (n : Nibble) : family (formXYN f x y n) = f.toNat := by
  have := x.isLt
  have := y.isLt
  have := n.isLt
  simp only [family, formXYN_toNat]
  omega

@[simp] theorem fieldX_formXYN (f : Nibble) (x y : Reg) (n : Nibble) : fieldX (formXYN f x y n) = x := by
  have := x.isLt
  have := y.isLt
  have := n.isLt
  apply Fin.ext
  simp only [fieldX, formXYN_toNat]
  omega

@[simp] theorem fieldY_formXYN (f : Nibble) (x y : Reg) (n : Nibble) : fieldY (formXYN f x y n) = y := by
  have := x.isLt
  have := y.isLt
  have := n.isLt
  apply Fin.ext
  simp only [fieldY, formXYN_toNat]
  omega

@[simp] theorem fieldN_formXYN (f : Nibble) (x y : Reg) (n : Nibble) : fieldN (formXYN f x y n) = n := by
  apply BitVec.eq_of_toNat_eq
  have := n.isLt
  simp only [fieldN, formXYN_toNat, BitVec.toNat_setWidth]
  omega

/-! ### A word is made of its fields -/

theorem family_lt (w : Word) : family w < 16 := by
  have := w.isLt
  simp only [family]
  omega

theorem eq_formNNN {w : Word} {f : Nibble} (h : family w = f.toNat) : formNNN f (fieldNNN w) = w := by
  apply BitVec.eq_of_toNat_eq
  simp only [family] at h
  simp only [formNNN_toNat, fieldNNN, BitVec.toNat_setWidth]
  omega

theorem eq_formXNN {w : Word} {f : Nibble} (h : family w = f.toNat) : formXNN f (fieldX w) (fieldNN w) = w := by
  apply BitVec.eq_of_toNat_eq
  simp only [family] at h
  simp only [formXNN_toNat, fieldX, fieldNN, BitVec.toNat_setWidth]
  omega

theorem eq_formXYN {w : Word} {f : Nibble} (h : family w = f.toNat) :
    formXYN f (fieldX w) (fieldY w) (fieldN w) = w := by
  apply BitVec.eq_of_toNat_eq
  simp only [family] at h
  simp only [formXYN_toNat, fieldX, fieldY, fieldN, BitVec.toNat_setWidth]
  omega

end Sys2Proof
end

