-- ==== Sys2Proof/Laws/State.lean ====
section
/-! SUPPORT. One lemma per field per update of State, and the register laws. -/

namespace Sys2Proof.Machine

/-! `State.setV` -/

@[simp] theorem State.setV_v (s : State) (r : Reg) (b : Byte) : (s.setV r b).v = s.v.set r.val b := rfl
@[simp] theorem State.setV_i (s : State) (r : Reg) (b : Byte) : (s.setV r b).i = s.i := rfl
@[simp] theorem State.setV_pc (s : State) (r : Reg) (b : Byte) : (s.setV r b).pc = s.pc := rfl
@[simp] theorem State.setV_sp (s : State) (r : Reg) (b : Byte) : (s.setV r b).sp = s.sp := rfl
@[simp] theorem State.setV_stack (s : State) (r : Reg) (b : Byte) : (s.setV r b).stack = s.stack := rfl
@[simp] theorem State.setV_dt (s : State) (r : Reg) (b : Byte) : (s.setV r b).dt = s.dt := rfl
@[simp] theorem State.setV_st (s : State) (r : Reg) (b : Byte) : (s.setV r b).st = s.st := rfl
@[simp] theorem State.setV_mem (s : State) (r : Reg) (b : Byte) : (s.setV r b).mem = s.mem := rfl
@[simp] theorem State.setV_fb (s : State) (r : Reg) (b : Byte) : (s.setV r b).fb = s.fb := rfl
@[simp] theorem State.setV_inputState (s : State) (r : Reg) (b : Byte) : (s.setV r b).inputState = s.inputState := rfl
@[simp] theorem State.setV_keyTarget (s : State) (r : Reg) (b : Byte) : (s.setV r b).keyTarget = s.keyTarget := rfl
@[simp] theorem State.setV_lastKey (s : State) (r : Reg) (b : Byte) : (s.setV r b).lastKey = s.lastKey := rfl
@[simp] theorem State.setV_fault (s : State) (r : Reg) (b : Byte) : (s.setV r b).fault = s.fault := rfl
@[simp] theorem State.setV_params (s : State) (r : Reg) (b : Byte) : (s.setV r b).params = s.params := rfl
@[simp] theorem State.setV_rndIndex (s : State) (r : Reg) (b : Byte) : (s.setV r b).rndIndex = s.rndIndex := rfl

/-! `State.setI` -/

@[simp] theorem State.setI_v (s : State) (w : Word) : (s.setI w).v = s.v := rfl
@[simp] theorem State.setI_i (s : State) (w : Word) : (s.setI w).i = w := rfl
@[simp] theorem State.setI_pc (s : State) (w : Word) : (s.setI w).pc = s.pc := rfl
@[simp] theorem State.setI_sp (s : State) (w : Word) : (s.setI w).sp = s.sp := rfl
@[simp] theorem State.setI_stack (s : State) (w : Word) : (s.setI w).stack = s.stack := rfl
@[simp] theorem State.setI_dt (s : State) (w : Word) : (s.setI w).dt = s.dt := rfl
@[simp] theorem State.setI_st (s : State) (w : Word) : (s.setI w).st = s.st := rfl
@[simp] theorem State.setI_mem (s : State) (w : Word) : (s.setI w).mem = s.mem := rfl
@[simp] theorem State.setI_fb (s : State) (w : Word) : (s.setI w).fb = s.fb := rfl
@[simp] theorem State.setI_inputState (s : State) (w : Word) : (s.setI w).inputState = s.inputState := rfl
@[simp] theorem State.setI_keyTarget (s : State) (w : Word) : (s.setI w).keyTarget = s.keyTarget := rfl
@[simp] theorem State.setI_lastKey (s : State) (w : Word) : (s.setI w).lastKey = s.lastKey := rfl
@[simp] theorem State.setI_fault (s : State) (w : Word) : (s.setI w).fault = s.fault := rfl
@[simp] theorem State.setI_params (s : State) (w : Word) : (s.setI w).params = s.params := rfl
@[simp] theorem State.setI_rndIndex (s : State) (w : Word) : (s.setI w).rndIndex = s.rndIndex := rfl

/-! `State.setPc` -/

@[simp] theorem State.setPc_v (s : State) (w : Word) : (s.setPc w).v = s.v := rfl
@[simp] theorem State.setPc_i (s : State) (w : Word) : (s.setPc w).i = s.i := rfl
@[simp] theorem State.setPc_pc (s : State) (w : Word) : (s.setPc w).pc = w := rfl
@[simp] theorem State.setPc_sp (s : State) (w : Word) : (s.setPc w).sp = s.sp := rfl
@[simp] theorem State.setPc_stack (s : State) (w : Word) : (s.setPc w).stack = s.stack := rfl
@[simp] theorem State.setPc_dt (s : State) (w : Word) : (s.setPc w).dt = s.dt := rfl
@[simp] theorem State.setPc_st (s : State) (w : Word) : (s.setPc w).st = s.st := rfl
@[simp] theorem State.setPc_mem (s : State) (w : Word) : (s.setPc w).mem = s.mem := rfl
@[simp] theorem State.setPc_fb (s : State) (w : Word) : (s.setPc w).fb = s.fb := rfl
@[simp] theorem State.setPc_inputState (s : State) (w : Word) : (s.setPc w).inputState = s.inputState := rfl
@[simp] theorem State.setPc_keyTarget (s : State) (w : Word) : (s.setPc w).keyTarget = s.keyTarget := rfl
@[simp] theorem State.setPc_lastKey (s : State) (w : Word) : (s.setPc w).lastKey = s.lastKey := rfl
@[simp] theorem State.setPc_fault (s : State) (w : Word) : (s.setPc w).fault = s.fault := rfl
@[simp] theorem State.setPc_params (s : State) (w : Word) : (s.setPc w).params = s.params := rfl
@[simp] theorem State.setPc_rndIndex (s : State) (w : Word) : (s.setPc w).rndIndex = s.rndIndex := rfl

/-! `State.setDt` -/

@[simp] theorem State.setDt_v (s : State) (b : Byte) : (s.setDt b).v = s.v := rfl
@[simp] theorem State.setDt_i (s : State) (b : Byte) : (s.setDt b).i = s.i := rfl
@[simp] theorem State.setDt_pc (s : State) (b : Byte) : (s.setDt b).pc = s.pc := rfl
@[simp] theorem State.setDt_sp (s : State) (b : Byte) : (s.setDt b).sp = s.sp := rfl
@[simp] theorem State.setDt_stack (s : State) (b : Byte) : (s.setDt b).stack = s.stack := rfl
@[simp] theorem State.setDt_dt (s : State) (b : Byte) : (s.setDt b).dt = b := rfl
@[simp] theorem State.setDt_st (s : State) (b : Byte) : (s.setDt b).st = s.st := rfl
@[simp] theorem State.setDt_mem (s : State) (b : Byte) : (s.setDt b).mem = s.mem := rfl
@[simp] theorem State.setDt_fb (s : State) (b : Byte) : (s.setDt b).fb = s.fb := rfl
@[simp] theorem State.setDt_inputState (s : State) (b : Byte) : (s.setDt b).inputState = s.inputState := rfl
@[simp] theorem State.setDt_keyTarget (s : State) (b : Byte) : (s.setDt b).keyTarget = s.keyTarget := rfl
@[simp] theorem State.setDt_lastKey (s : State) (b : Byte) : (s.setDt b).lastKey = s.lastKey := rfl
@[simp] theorem State.setDt_fault (s : State) (b : Byte) : (s.setDt b).fault = s.fault := rfl
@[simp] theorem State.setDt_params (s : State) (b : Byte) : (s.setDt b).params = s.params := rfl
@[simp] theorem State.setDt_rndIndex (s : State) (b : Byte) : (s.setDt b).rndIndex = s.rndIndex := rfl

/-! `State.setSt` -/

@[simp] theorem State.setSt_v (s : State) (b : Byte) : (s.setSt b).v = s.v := rfl
@[simp] theorem State.setSt_i (s : State) (b : Byte) : (s.setSt b).i = s.i := rfl
@[simp] theorem State.setSt_pc (s : State) (b : Byte) : (s.setSt b).pc = s.pc := rfl
@[simp] theorem State.setSt_sp (s : State) (b : Byte) : (s.setSt b).sp = s.sp := rfl
@[simp] theorem State.setSt_stack (s : State) (b : Byte) : (s.setSt b).stack = s.stack := rfl
@[simp] theorem State.setSt_dt (s : State) (b : Byte) : (s.setSt b).dt = s.dt := rfl
@[simp] theorem State.setSt_st (s : State) (b : Byte) : (s.setSt b).st = b := rfl
@[simp] theorem State.setSt_mem (s : State) (b : Byte) : (s.setSt b).mem = s.mem := rfl
@[simp] theorem State.setSt_fb (s : State) (b : Byte) : (s.setSt b).fb = s.fb := rfl
@[simp] theorem State.setSt_inputState (s : State) (b : Byte) : (s.setSt b).inputState = s.inputState := rfl
@[simp] theorem State.setSt_keyTarget (s : State) (b : Byte) : (s.setSt b).keyTarget = s.keyTarget := rfl
@[simp] theorem State.setSt_lastKey (s : State) (b : Byte) : (s.setSt b).lastKey = s.lastKey := rfl
@[simp] theorem State.setSt_fault (s : State) (b : Byte) : (s.setSt b).fault = s.fault := rfl
@[simp] theorem State.setSt_params (s : State) (b : Byte) : (s.setSt b).params = s.params := rfl
@[simp] theorem State.setSt_rndIndex (s : State) (b : Byte) : (s.setSt b).rndIndex = s.rndIndex := rfl

/-! `State.setFb` -/

@[simp] theorem State.setFb_v (s : State) (f : Framebuffer) : (s.setFb f).v = s.v := rfl
@[simp] theorem State.setFb_i (s : State) (f : Framebuffer) : (s.setFb f).i = s.i := rfl
@[simp] theorem State.setFb_pc (s : State) (f : Framebuffer) : (s.setFb f).pc = s.pc := rfl
@[simp] theorem State.setFb_sp (s : State) (f : Framebuffer) : (s.setFb f).sp = s.sp := rfl
@[simp] theorem State.setFb_stack (s : State) (f : Framebuffer) : (s.setFb f).stack = s.stack := rfl
@[simp] theorem State.setFb_dt (s : State) (f : Framebuffer) : (s.setFb f).dt = s.dt := rfl
@[simp] theorem State.setFb_st (s : State) (f : Framebuffer) : (s.setFb f).st = s.st := rfl
@[simp] theorem State.setFb_mem (s : State) (f : Framebuffer) : (s.setFb f).mem = s.mem := rfl
@[simp] theorem State.setFb_fb (s : State) (f : Framebuffer) : (s.setFb f).fb = f := rfl
@[simp] theorem State.setFb_inputState (s : State) (f : Framebuffer) : (s.setFb f).inputState = s.inputState := rfl
@[simp] theorem State.setFb_keyTarget (s : State) (f : Framebuffer) : (s.setFb f).keyTarget = s.keyTarget := rfl
@[simp] theorem State.setFb_lastKey (s : State) (f : Framebuffer) : (s.setFb f).lastKey = s.lastKey := rfl
@[simp] theorem State.setFb_fault (s : State) (f : Framebuffer) : (s.setFb f).fault = s.fault := rfl
@[simp] theorem State.setFb_params (s : State) (f : Framebuffer) : (s.setFb f).params = s.params := rfl
@[simp] theorem State.setFb_rndIndex (s : State) (f : Framebuffer) : (s.setFb f).rndIndex = s.rndIndex := rfl

/-! `State.setLastKey` -/

@[simp] theorem State.setLastKey_v (s : State) (k : Option Key) : (s.setLastKey k).v = s.v := rfl
@[simp] theorem State.setLastKey_i (s : State) (k : Option Key) : (s.setLastKey k).i = s.i := rfl
@[simp] theorem State.setLastKey_pc (s : State) (k : Option Key) : (s.setLastKey k).pc = s.pc := rfl
@[simp] theorem State.setLastKey_sp (s : State) (k : Option Key) : (s.setLastKey k).sp = s.sp := rfl
@[simp] theorem State.setLastKey_stack (s : State) (k : Option Key) : (s.setLastKey k).stack = s.stack := rfl
@[simp] theorem State.setLastKey_dt (s : State) (k : Option Key) : (s.setLastKey k).dt = s.dt := rfl
@[simp] theorem State.setLastKey_st (s : State) (k : Option Key) : (s.setLastKey k).st = s.st := rfl
@[simp] theorem State.setLastKey_mem (s : State) (k : Option Key) : (s.setLastKey k).mem = s.mem := rfl
@[simp] theorem State.setLastKey_fb (s : State) (k : Option Key) : (s.setLastKey k).fb = s.fb := rfl
@[simp] theorem State.setLastKey_inputState (s : State) (k : Option Key) : (s.setLastKey k).inputState = s.inputState := rfl
@[simp] theorem State.setLastKey_keyTarget (s : State) (k : Option Key) : (s.setLastKey k).keyTarget = s.keyTarget := rfl
@[simp] theorem State.setLastKey_lastKey (s : State) (k : Option Key) : (s.setLastKey k).lastKey = k := rfl
@[simp] theorem State.setLastKey_fault (s : State) (k : Option Key) : (s.setLastKey k).fault = s.fault := rfl
@[simp] theorem State.setLastKey_params (s : State) (k : Option Key) : (s.setLastKey k).params = s.params := rfl
@[simp] theorem State.setLastKey_rndIndex (s : State) (k : Option Key) : (s.setLastKey k).rndIndex = s.rndIndex := rfl

/-! `State.setMem` -/

@[simp] theorem State.setMem_v (s : State) (m : Memory) : (s.setMem m).v = s.v := rfl
@[simp] theorem State.setMem_i (s : State) (m : Memory) : (s.setMem m).i = s.i := rfl
@[simp] theorem State.setMem_pc (s : State) (m : Memory) : (s.setMem m).pc = s.pc := rfl
@[simp] theorem State.setMem_sp (s : State) (m : Memory) : (s.setMem m).sp = s.sp := rfl
@[simp] theorem State.setMem_stack (s : State) (m : Memory) : (s.setMem m).stack = s.stack := rfl
@[simp] theorem State.setMem_dt (s : State) (m : Memory) : (s.setMem m).dt = s.dt := rfl
@[simp] theorem State.setMem_st (s : State) (m : Memory) : (s.setMem m).st = s.st := rfl
@[simp] theorem State.setMem_mem (s : State) (m : Memory) : (s.setMem m).mem = m := rfl
@[simp] theorem State.setMem_fb (s : State) (m : Memory) : (s.setMem m).fb = s.fb := rfl
@[simp] theorem State.setMem_inputState (s : State) (m : Memory) : (s.setMem m).inputState = s.inputState := rfl
@[simp] theorem State.setMem_keyTarget (s : State) (m : Memory) : (s.setMem m).keyTarget = s.keyTarget := rfl
@[simp] theorem State.setMem_lastKey (s : State) (m : Memory) : (s.setMem m).lastKey = s.lastKey := rfl
@[simp] theorem State.setMem_fault (s : State) (m : Memory) : (s.setMem m).fault = s.fault := rfl
@[simp] theorem State.setMem_params (s : State) (m : Memory) : (s.setMem m).params = s.params := rfl
@[simp] theorem State.setMem_rndIndex (s : State) (m : Memory) : (s.setMem m).rndIndex = s.rndIndex := rfl

/-! `completeStep` -/

@[simp] theorem completeStep_v (s : State) : (completeStep s).v = s.v := rfl
@[simp] theorem completeStep_i (s : State) : (completeStep s).i = s.i := rfl
@[simp] theorem completeStep_pc (s : State) : (completeStep s).pc = s.pc := rfl
@[simp] theorem completeStep_sp (s : State) : (completeStep s).sp = s.sp := rfl
@[simp] theorem completeStep_stack (s : State) : (completeStep s).stack = s.stack := rfl
@[simp] theorem completeStep_dt (s : State) : (completeStep s).dt = tickTimer s.dt := rfl
@[simp] theorem completeStep_st (s : State) : (completeStep s).st = tickTimer s.st := rfl
@[simp] theorem completeStep_mem (s : State) : (completeStep s).mem = s.mem := rfl
@[simp] theorem completeStep_fb (s : State) : (completeStep s).fb = s.fb := rfl
@[simp] theorem completeStep_inputState (s : State) : (completeStep s).inputState = s.inputState := rfl
@[simp] theorem completeStep_keyTarget (s : State) : (completeStep s).keyTarget = s.keyTarget := rfl
@[simp] theorem completeStep_lastKey (s : State) : (completeStep s).lastKey = s.lastKey := rfl
@[simp] theorem completeStep_fault (s : State) : (completeStep s).fault = s.fault := rfl
@[simp] theorem completeStep_params (s : State) : (completeStep s).params = s.params := rfl
@[simp] theorem completeStep_rndIndex (s : State) : (completeStep s).rndIndex = s.rndIndex + 1 := rfl

/-! `raiseFatal` -/

@[simp] theorem raiseFatal_v (p : Word) (k : FatalKind) (e : Word) (s : State) : (raiseFatal p k e s).v = s.v := rfl
@[simp] theorem raiseFatal_i (p : Word) (k : FatalKind) (e : Word) (s : State) : (raiseFatal p k e s).i = s.i := rfl
@[simp] theorem raiseFatal_pc (p : Word) (k : FatalKind) (e : Word) (s : State) : (raiseFatal p k e s).pc = p := rfl
@[simp] theorem raiseFatal_sp (p : Word) (k : FatalKind) (e : Word) (s : State) : (raiseFatal p k e s).sp = s.sp := rfl
@[simp] theorem raiseFatal_stack (p : Word) (k : FatalKind) (e : Word) (s : State) : (raiseFatal p k e s).stack = s.stack := rfl
@[simp] theorem raiseFatal_dt (p : Word) (k : FatalKind) (e : Word) (s : State) : (raiseFatal p k e s).dt = s.dt := rfl
@[simp] theorem raiseFatal_st (p : Word) (k : FatalKind) (e : Word) (s : State) : (raiseFatal p k e s).st = s.st := rfl
@[simp] theorem raiseFatal_mem (p : Word) (k : FatalKind) (e : Word) (s : State) : (raiseFatal p k e s).mem = s.mem := rfl
@[simp] theorem raiseFatal_fb (p : Word) (k : FatalKind) (e : Word) (s : State) : (raiseFatal p k e s).fb = s.fb := rfl
@[simp] theorem raiseFatal_inputState (p : Word) (k : FatalKind) (e : Word) (s : State) : (raiseFatal p k e s).inputState = s.inputState := rfl
@[simp] theorem raiseFatal_keyTarget (p : Word) (k : FatalKind) (e : Word) (s : State) : (raiseFatal p k e s).keyTarget = s.keyTarget := rfl
@[simp] theorem raiseFatal_lastKey (p : Word) (k : FatalKind) (e : Word) (s : State) : (raiseFatal p k e s).lastKey = s.lastKey := rfl
@[simp] theorem raiseFatal_fault (p : Word) (k : FatalKind) (e : Word) (s : State) : (raiseFatal p k e s).fault = some ⟨k, p, e⟩ := rfl
@[simp] theorem raiseFatal_params (p : Word) (k : FatalKind) (e : Word) (s : State) : (raiseFatal p k e s).params = s.params := rfl
@[simp] theorem raiseFatal_rndIndex (p : Word) (k : FatalKind) (e : Word) (s : State) : (raiseFatal p k e s).rndIndex = s.rndIndex := rfl

/-! `raiseInHandler` -/

@[simp] theorem raiseInHandler_v (k : FatalKind) (e : Word) (s : State) : (raiseInHandler k e s).v = s.v := rfl
@[simp] theorem raiseInHandler_i (k : FatalKind) (e : Word) (s : State) : (raiseInHandler k e s).i = s.i := rfl
@[simp] theorem raiseInHandler_pc (k : FatalKind) (e : Word) (s : State) : (raiseInHandler k e s).pc = s.pc - 2 := rfl
@[simp] theorem raiseInHandler_sp (k : FatalKind) (e : Word) (s : State) : (raiseInHandler k e s).sp = s.sp := rfl
@[simp] theorem raiseInHandler_stack (k : FatalKind) (e : Word) (s : State) : (raiseInHandler k e s).stack = s.stack := rfl
@[simp] theorem raiseInHandler_dt (k : FatalKind) (e : Word) (s : State) : (raiseInHandler k e s).dt = s.dt := rfl
@[simp] theorem raiseInHandler_st (k : FatalKind) (e : Word) (s : State) : (raiseInHandler k e s).st = s.st := rfl
@[simp] theorem raiseInHandler_mem (k : FatalKind) (e : Word) (s : State) : (raiseInHandler k e s).mem = s.mem := rfl
@[simp] theorem raiseInHandler_fb (k : FatalKind) (e : Word) (s : State) : (raiseInHandler k e s).fb = s.fb := rfl
@[simp] theorem raiseInHandler_inputState (k : FatalKind) (e : Word) (s : State) : (raiseInHandler k e s).inputState = s.inputState := rfl
@[simp] theorem raiseInHandler_keyTarget (k : FatalKind) (e : Word) (s : State) : (raiseInHandler k e s).keyTarget = s.keyTarget := rfl
@[simp] theorem raiseInHandler_lastKey (k : FatalKind) (e : Word) (s : State) : (raiseInHandler k e s).lastKey = s.lastKey := rfl
@[simp] theorem raiseInHandler_fault (k : FatalKind) (e : Word) (s : State) : (raiseInHandler k e s).fault = some ⟨k, s.pc - 2, e⟩ := rfl
@[simp] theorem raiseInHandler_params (k : FatalKind) (e : Word) (s : State) : (raiseInHandler k e s).params = s.params := rfl
@[simp] theorem raiseInHandler_rndIndex (k : FatalKind) (e : Word) (s : State) : (raiseInHandler k e s).rndIndex = s.rndIndex := rfl

/-! Registers and memory bytes after an update -/

theorem State.getV_setV (s : State) (r q : Reg) (b : Byte) :
    (s.setV r b).getV q = if q = r then b else s.getV q := by
  simp only [State.getV, State.setV, Vector.getElem_set, Fin.ext_iff, eq_comm]

@[simp] theorem State.getV_setV_self (s : State) (r : Reg) (b : Byte) : (s.setV r b).getV r = b := by
  simp [State.getV_setV]

theorem State.getV_setV_of_ne (s : State) {r q : Reg} (b : Byte) (h : q ≠ r) : (s.setV r b).getV q = s.getV q := by
  simp [State.getV_setV, h]

@[simp] theorem State.byteAt_setV (s : State) (r : Reg) (b : Byte) (a : Nat) : (s.setV r b).byteAt a = s.byteAt a := rfl
@[simp] theorem State.getV_setI (s : State) (w : Word) (r : Reg) : (s.setI w).getV r = s.getV r := rfl
@[simp] theorem State.byteAt_setI (s : State) (w : Word) (a : Nat) : (s.setI w).byteAt a = s.byteAt a := rfl
@[simp] theorem State.getV_setPc (s : State) (w : Word) (r : Reg) : (s.setPc w).getV r = s.getV r := rfl
@[simp] theorem State.byteAt_setPc (s : State) (w : Word) (a : Nat) : (s.setPc w).byteAt a = s.byteAt a := rfl
@[simp] theorem State.getV_setDt (s : State) (b : Byte) (r : Reg) : (s.setDt b).getV r = s.getV r := rfl
@[simp] theorem State.byteAt_setDt (s : State) (b : Byte) (a : Nat) : (s.setDt b).byteAt a = s.byteAt a := rfl
@[simp] theorem State.getV_setSt (s : State) (b : Byte) (r : Reg) : (s.setSt b).getV r = s.getV r := rfl
@[simp] theorem State.byteAt_setSt (s : State) (b : Byte) (a : Nat) : (s.setSt b).byteAt a = s.byteAt a := rfl
@[simp] theorem State.getV_setFb (s : State) (f : Framebuffer) (r : Reg) : (s.setFb f).getV r = s.getV r := rfl
@[simp] theorem State.byteAt_setFb (s : State) (f : Framebuffer) (a : Nat) : (s.setFb f).byteAt a = s.byteAt a := rfl
@[simp] theorem State.getV_setLastKey (s : State) (k : Option Key) (r : Reg) : (s.setLastKey k).getV r = s.getV r := rfl
@[simp] theorem State.byteAt_setLastKey (s : State) (k : Option Key) (a : Nat) : (s.setLastKey k).byteAt a = s.byteAt a := rfl
@[simp] theorem State.getV_setMem (s : State) (m : Memory) (r : Reg) : (s.setMem m).getV r = s.getV r := rfl

@[simp] theorem getV_completeStep (s : State) (r : Reg) : (completeStep s).getV r = s.getV r := rfl
@[simp] theorem byteAt_completeStep (s : State) (a : Nat) : (completeStep s).byteAt a = s.byteAt a := rfl
@[simp] theorem getV_raiseInHandler (k : FatalKind) (e : Word) (s : State) (r : Reg) :
    (raiseInHandler k e s).getV r = s.getV r := rfl
@[simp] theorem byteAt_raiseInHandler (k : FatalKind) (e : Word) (s : State) (a : Nat) :
    (raiseInHandler k e s).byteAt a = s.byteAt a := rfl

end Sys2Proof.Machine
end

