-- ==== Sys2Proof/Laws/Memory.lean ====
section
/-! SUPPORT. The laws of the sorted memory: read after write, the canonical form, equal reads make equal memories. -/

namespace Sys2Proof.Machine

/-- Every listed address is above `a`. -/
abbrev Memory.Above (a : Nat) (m : Memory) : Prop := ∀ c ∈ m, a < c.1

theorem Memory.lookup_eq_none_of_above {m : Memory} {a : Nat} (h : Memory.Above a m) : Memory.lookup m a = none := by
  induction m with
  | nil => rfl
  | cons c m ih =>
    obtain ⟨k, b⟩ := c
    have hk : a < k := h (k, b) (by simp)
    have hm : Memory.Above a m := fun c hc => h c (by simp [hc])
    simp [Memory.lookup, Nat.ne_of_gt hk, ih hm]

theorem Memory.lookup_put (m : Memory) (a x : Nat) (b : Byte) :
    Memory.lookup (Memory.put m a b) x = if x = a then some b else Memory.lookup m x := by
  induction m with
  | nil => simp [Memory.put, Memory.lookup, eq_comm]
  | cons c m ih =>
    obtain ⟨k, d⟩ := c
    simp only [Memory.put]
    split
    · simp [Memory.lookup, eq_comm]
    · split
      · subst_vars
        by_cases hx : x = k <;> simp [Memory.lookup, hx, eq_comm]
      · by_cases hk : k = x
        · subst hk
          simp [Memory.lookup, show ¬ k = a by omega]
        · simp [Memory.lookup, hk, ih]

theorem Memory.lookup_erase (m : Memory) (a x : Nat) :
    Memory.lookup (Memory.erase m a) x = if x = a then none else Memory.lookup m x := by
  induction m with
  | nil => simp [Memory.erase, Memory.lookup]
  | cons c m ih =>
    obtain ⟨k, d⟩ := c
    simp only [Memory.erase]
    split
    · subst_vars
      by_cases hx : x = k
      · subst hx
        simpa using ih
      · simp [Memory.lookup, ih, hx, Ne.symm hx]
    · by_cases hx : k = x
      · subst hx
        simp [Memory.lookup, *]
      · simp [Memory.lookup, hx, ih]

/-- Read after write (R61, R72). -/
theorem Memory.get_set (p : Params) (m : Memory) (a x : Nat) (b : Byte) :
    Memory.get p (Memory.set p m a b) x = if x = a then b else Memory.get p m x := by
  unfold Memory.get Memory.set
  split
  · rw [Memory.lookup_erase]
    split <;> simp_all
  · rw [Memory.lookup_put]
    split <;> simp

theorem Memory.mem_put {m : Memory} {a : Nat} {b : Byte} {c : Host.Cell} (h : c ∈ Memory.put m a b) :
    c = (a, b) ∨ c ∈ m := by
  induction m with
  | nil => simpa [Memory.put] using h
  | cons d m ih =>
    obtain ⟨k, e⟩ := d
    simp only [Memory.put] at h
    split at h
    · simpa using h
    · split at h
      · simp only [List.mem_cons] at h ⊢
        tauto
      · simp only [List.mem_cons] at h ⊢
        rcases h with h | h
        · tauto
        · rcases ih h with h | h <;> tauto

theorem Memory.mem_erase {m : Memory} {a : Nat} {c : Host.Cell} (h : c ∈ Memory.erase m a) : c ∈ m := by
  induction m with
  | nil => simp [Memory.erase] at h
  | cons d m ih =>
    obtain ⟨k, e⟩ := d
    simp only [Memory.erase] at h
    split at h
    · exact List.mem_cons_of_mem _ (ih h)
    · simp only [List.mem_cons] at h ⊢
      exact h.imp id ih

theorem Memory.put_sorted {m : Memory} (hm : m.Pairwise (fun c d => c.1 < d.1)) (a : Nat) (b : Byte) :
    (Memory.put m a b).Pairwise (fun c d => c.1 < d.1) := by
  induction m with
  | nil => simp [Memory.put]
  | cons c m ih =>
    obtain ⟨k, d⟩ := c
    obtain ⟨hk, hm'⟩ := List.pairwise_cons.mp hm
    simp only [Memory.put]
    split
    · rename_i h
      refine List.pairwise_cons.mpr ⟨fun c hc => ?_, hm⟩
      rcases List.mem_cons.mp hc with rfl | hc
      · exact h
      · exact Nat.lt_trans h (hk c hc)
    · split
      · rename_i h
        exact List.pairwise_cons.mpr ⟨fun c hc => by have := hk c hc; simp_all, hm'⟩
      · refine List.pairwise_cons.mpr ⟨fun c hc => ?_, ih hm'⟩
        rcases Memory.mem_put hc with rfl | hc
        · show k < a
          omega
        · exact hk c hc

theorem Memory.erase_sorted {m : Memory} (hm : m.Pairwise (fun c d => c.1 < d.1)) (a : Nat) :
    (Memory.erase m a).Pairwise (fun c d => c.1 < d.1) := by
  induction m with
  | nil => simp [Memory.erase]
  | cons c m ih =>
    obtain ⟨k, d⟩ := c
    obtain ⟨hk, hm'⟩ := List.pairwise_cons.mp hm
    simp only [Memory.erase]
    split
    · exact ih hm'
    · exact List.pairwise_cons.mpr ⟨fun c hc => hk c (Memory.mem_erase hc), ih hm'⟩

/-- A write inside the address space keeps the canonical form. -/
theorem Memory.set_wf {p : Params} {m : Memory} (hm : Memory.wf p m) {a : Nat} (ha : a < 4096) (b : Byte) :
    Memory.wf p (Memory.set p m a b) := by
  unfold Memory.set
  split
  · exact ⟨Memory.erase_sorted hm.1 a, fun c hc => hm.2 c (Memory.mem_erase hc)⟩
  · refine ⟨Memory.put_sorted hm.1 a b, fun c hc => ?_⟩
    rcases Memory.mem_put hc with rfl | hc
    · exact ⟨ha, by assumption⟩
    · exact hm.2 c hc

/-- A listed byte is not what an unlisted address reads as. -/
theorem Memory.lookup_ne_unlisted {p : Params} {m : Memory} (hm : Memory.wf p m) {a : Nat} {b : Byte}
    (h : Memory.lookup m a = some b) : b ≠ unlistedByte p a := by
  suffices hmem : (a, b) ∈ m from (hm.2 _ hmem).2
  clear hm
  induction m with
  | nil => simp [Memory.lookup] at h
  | cons c m ih =>
    obtain ⟨k, d⟩ := c
    simp only [Memory.lookup] at h
    split at h
    · simp_all
    · exact List.mem_cons_of_mem _ (ih h)

/-- In canonical form the listed byte of an address can be read off the memory's contents. -/
theorem Memory.lookup_of_get {p : Params} {m : Memory} (hm : Memory.wf p m) (a : Nat) :
    Memory.lookup m a = if Memory.get p m a = unlistedByte p a then none else some (Memory.get p m a) := by
  unfold Memory.get
  cases h : Memory.lookup m a with
  | none => simp
  | some b => simp [Memory.lookup_ne_unlisted hm h]

/-- Two sorted lists of cells that give every address the same byte are equal. -/
theorem Memory.eq_of_lookup {m n : Memory} (hm : m.Pairwise (fun c d => c.1 < d.1))
    (hn : n.Pairwise (fun c d => c.1 < d.1)) (h : ∀ a, Memory.lookup m a = Memory.lookup n a) : m = n := by
  induction m generalizing n with
  | nil =>
    cases n with
    | nil => rfl
    | cons d n => simpa [Memory.lookup] using h d.1
  | cons c m ih =>
    obtain ⟨k, b⟩ := c
    obtain ⟨hk, hm'⟩ := List.pairwise_cons.mp hm
    cases n with
    | nil => simpa [Memory.lookup] using h k
    | cons d n =>
      obtain ⟨l, e⟩ := d
      obtain ⟨hl, hn'⟩ := List.pairwise_cons.mp hn
      have hkl : k = l := by
        rcases Nat.lt_trichotomy k l with hlt | heq | hgt
        · have habove : Memory.Above k n := fun c hc => Nat.lt_trans hlt (hl c hc)
          have := h k
          simp [Memory.lookup, Nat.ne_of_gt hlt, Memory.lookup_eq_none_of_above habove] at this
        · exact heq
        · have habove : Memory.Above l m := fun c hc => Nat.lt_trans hgt (hk c hc)
          have := h l
          simp [Memory.lookup, Nat.ne_of_gt hgt, Memory.lookup_eq_none_of_above habove] at this
      subst hkl
      have hbe : b = e := by simpa [Memory.lookup] using h k
      subst hbe
      refine congrArg _ (ih hm' hn' fun a => ?_)
      by_cases ha : k = a
      · subst ha
        rw [Memory.lookup_eq_none_of_above hk, Memory.lookup_eq_none_of_above hl]
      · simpa [Memory.lookup, ha] using h a

end Sys2Proof.Machine
end

