-- ==== Sys2Proof/Laws/Ops.lean ====
section
/-! SUPPORT. One lemma for each shared operation over memory, registers and the stack, saying all it can do. -/

namespace Sys2Proof.Machine

/-! ### Byte reads and writes -/

@[simp] theorem State.byteAt_setMem (s : State) (m : Memory) (a : Nat) :
    (s.setMem m).byteAt a = Memory.get s.params m a := rfl

/-- `MemRead(a, 1)` faults exactly above 0xFFF (R61). -/
theorem memRead_eq (s : State) (a : Nat) :
    memRead s a = if 0xFFF < a then .error a else .ok (s.byteAt a) := rfl

/-- `MemWrite(a, 1, b)` faults exactly above 0xFFF, and otherwise changes memory alone (R61). -/
theorem memWrite_eq (s : State) (a : Nat) (b : Byte) :
    memWrite s a b = if 0xFFF < a then .error a else .ok (s.setMem (Memory.set s.params s.mem a b)) := rfl

/-- `MemRead(a, 2)`: the lowest address out of range, or the big-endian word (R62). -/
theorem memReadWord_eq (s : State) (a : Nat) :
    memReadWord s a =
      if 0xFFF < a + 1 then .error (max a 0x1000) else .ok (wordOfBytes (s.byteAt a) (s.byteAt (a + 1))) := by
  unfold memReadWord
  simp only [memRead_eq]
  by_cases h1 : 0xFFF < a
  · simp [h1, show 0xFFF < a + 1 by omega, Nat.max_eq_left (show 0x1000 ≤ a by omega)]
  · by_cases h2 : 0xFFF < a + 1
    · simp [show a = 0xFFF by omega]
    · simp [h1, h2]

/-- A block read inside the address space answers its bytes in ascending order (R66). -/
theorem readBytes_ok (s : State) (a n : Nat) (h : a + n ≤ 0x1000) :
    readBytes s a n = .ok ((List.range n).map fun k => s.byteAt (a + k)) := by
  induction n generalizing a with
  | zero => rfl
  | succ n ih =>
    have hs : List.map (fun k => s.byteAt (a + 1 + k)) (List.range n) =
        List.map (fun k => s.byteAt (a + (k + 1))) (List.range n) :=
      List.map_congr_left fun k _ => by rw [show a + 1 + k = a + (k + 1) by omega]
    simp [readBytes, memRead_eq, show ¬ 0xFFF < a by omega, ih (a + 1) (by omega), List.range_succ_eq_map, hs,
      Function.comp_def]

/-- A block read that leaves the address space records its lowest address out of range (R64). -/
theorem readBytes_error (s : State) (a n : Nat) (hn : 0 < n) (h : 0x1000 < a + n) :
    readBytes s a n = .error (max a 0x1000) := by
  induction n generalizing a with
  | zero => omega
  | succ n ih =>
    by_cases ha : 0xFFF < a
    · simp [readBytes, memRead_eq, ha, Nat.max_eq_left (show 0x1000 ≤ a by omega)]
    · have := ih (a + 1) (by omega) (by omega)
      simp [readBytes, memRead_eq, ha, this]
      omega

/-- A block write that succeeds is the writes of its bytes to memory, nothing else. -/
theorem writeBytes_ok (s : State) (a : Nat) (bs : List Byte) (h : a + bs.length ≤ 0x1000) :
    ∃ m, writeBytes s a bs = .ok (s.setMem m) ∧ (Memory.wf s.params s.mem → Memory.wf s.params m) ∧
      ∀ x, Memory.get s.params m x = if a ≤ x then bs[x - a]?.getD (s.byteAt x) else s.byteAt x := by
  induction bs generalizing s a with
  | nil => exact ⟨s.mem, rfl, id, fun x => by simp [State.byteAt]⟩
  | cons b bs ih =>
    simp only [List.length_cons] at h
    obtain ⟨m, hm, hwf, hget⟩ := ih (s.setMem (Memory.set s.params s.mem a b)) (a + 1) (by omega)
    refine ⟨m, ?_, fun hw => hwf (Memory.set_wf hw (by omega) b), fun x => ?_⟩
    · simp [writeBytes, memWrite_eq, show ¬ 0xFFF < a by omega, hm]
      rfl
    · rw [show s.params = (s.setMem (Memory.set s.params s.mem a b)).params from rfl, hget x]
      simp only [State.byteAt_setMem, Memory.get_set]
      rcases Nat.lt_trichotomy x a with hx | hx | hx
      · simp [show ¬ a + 1 ≤ x by omega, show ¬ a ≤ x by omega, show x ≠ a by omega, State.byteAt]
      · subst hx
        simp
      · obtain ⟨k, rfl⟩ : ∃ k, x = a + 1 + k := ⟨x - (a + 1), by omega⟩
        simp [show a ≤ a + 1 + k by omega, show a + 1 + k - a = k + 1 by omega, show a + 1 + k ≠ a by omega,
          State.byteAt]

/-- A block write that leaves the address space records its lowest address out of range (R64). -/
theorem writeBytes_error (s : State) (a : Nat) (bs : List Byte) (hn : bs ≠ []) (h : 0x1000 < a + bs.length) :
    writeBytes s a bs = .error (max a 0x1000) := by
  induction bs generalizing s a with
  | nil => exact absurd rfl hn
  | cons b bs ih =>
    by_cases ha : 0xFFF < a
    · simp [writeBytes, memWrite_eq, ha, Nat.max_eq_left (show 0x1000 ≤ a by omega)]
    · simp only [List.length_cons] at h
      have hne : bs ≠ [] := by
        rintro rfl
        simp at h
        omega
      have := ih (s.setMem (Memory.set s.params s.mem a b)) (a + 1) hne (by omega)
      simp [writeBytes, memWrite_eq, ha, this]
      omega

/-! ### Registers -/

theorem State.ext_getV {s t : State} (h : ∀ r, s.getV r = t.getV r) : s.v = t.v :=
  Vector.ext fun k hk => h ⟨k, hk⟩

theorem firstRegs_length (s : State) (n : Nat) : (firstRegs s n).length = min n 16 := by
  simp [firstRegs]

theorem firstRegs_getElem? (s : State) (n : Nat) (r : Reg) :
    (firstRegs s n)[r.val]? = if r.val < n then some (s.getV r) else none := by
  have hr := r.isLt
  by_cases h : r.val < n
  · simp [firstRegs, h, State.getV]
  · simp [firstRegs, h]

/-- Writing registers from number `r` on changes registers alone, each to its byte of the list (R215). -/
theorem writeRegs_getV (s : State) (r : Nat) (bs : List Byte) (q : Reg) :
    (writeRegs s r bs).getV q = if r ≤ q.val then bs[q.val - r]?.getD (s.getV q) else s.getV q := by
  induction bs generalizing s r with
  | nil => simp [writeRegs]
  | cons b bs ih =>
    have hq := q.isLt
    simp only [writeRegs]
    split
    · rw [ih, State.getV_setV]
      rcases Nat.lt_trichotomy q.val r with h | h | h
      · simp [show ¬ r ≤ q.val by omega, show ¬ r + 1 ≤ q.val by omega, show ¬ q = ⟨r, by assumption⟩ from fun e => by
          simp [e] at h]
      · simp [show q = ⟨r, by assumption⟩ from Fin.ext h]
      · obtain ⟨k, hk⟩ : ∃ k, q.val = r + 1 + k := ⟨q.val - (r + 1), by omega⟩
        simp [hk, show r ≤ r + 1 + k by omega, show r + 1 + k - r = k + 1 by omega, show ¬ q = ⟨r, by assumption⟩ from
          fun e => by simp [e] at h]
    · simp [show ¬ r ≤ q.val by omega]

/-- The state that `writeRegs` makes differs from the old one in its registers alone. -/
theorem writeRegs_eq (s : State) (r : Nat) (bs : List Byte) :
    writeRegs s r bs = { s with v := (writeRegs s r bs).v } := by
  induction bs generalizing s r with
  | nil => rfl
  | cons b bs ih =>
    simp only [writeRegs]
    split
    · rw [ih]
      rfl
    · rfl

/-! ### The call stack -/

/-- A push with an entry free (R143). -/
theorem pushStack_of_lt (s : State) (w : Word) (k : Fin 16) (h : s.sp.val = k.val) :
    pushStack s w = some { s with stack := s.stack.set k.val w, sp := ⟨k.val + 1, by omega⟩ } := by
  have hk := k.isLt
  simp [pushStack, h]

/-- A push onto a full stack (R143). -/
theorem pushStack_full (s : State) (w : Word) (h : s.sp.val = 16) : pushStack s w = none := by
  simp [pushStack, h]

/-- A pop of the top entry (R141). -/
theorem popStack_of_pos (s : State) (k : Fin 16) (h : s.sp.val = k.val + 1) :
    popStack s = some (s.stack[k.val], { s with sp := ⟨k.val, by omega⟩ }) := by
  simp [popStack, h]

/-- A pop of an empty stack (R141). -/
theorem popStack_empty (s : State) (h : s.sp.val = 0) : popStack s = none := by
  simp [popStack, h]

/-! ### Errors in a handler -/

@[simp] theorem orAddressingError_ok (s t : State) : orAddressingError s (.ok t) = t := rfl

@[simp] theorem orAddressingError_error (s : State) (a : Nat) :
    orAddressingError s (.error a) = raiseInHandler .addressingError (BitVec.ofNat 16 a) s := rfl

/-! ### Timers -/

/-- A timer goes down by one and stops at 0 (R300). -/
theorem tickTimer_toNat (b : Byte) : (tickTimer b).toNat = b.toNat - 1 := by
  unfold tickTimer
  split
  · simp_all
  · have : b.toNat ≠ 0 := fun h => ‹¬ b = 0› (BitVec.eq_of_toNat_eq h)
    have := b.isLt
    simp [BitVec.toNat_sub]
    omega

end Sys2Proof.Machine
end

