-- ==== Sys2Proof/Laws/Cycle.lean ====
section
/-! SUPPORT. What beginning and finishing a step can do, and the inversion of a step. -/

namespace Sys2Proof.Machine

theorem advancePc_eq (s : State) : advancePc s = { s with pc := s.pc + 2 } := rfl

/-- A frozen core's step is over at once (R122). -/
theorem beginStep_frozen {s : State} {f : FaultRecord} (h : s.fault = some f) : beginStep s = .done s := by
  simp [beginStep, h]

/-- An awaiting core's step only ticks (R114). -/
theorem beginStep_awaiting {s : State} (hf : s.fault = none) (hi : s.inputState = .awaitingKey) :
    beginStep s = .done (completeStep s) := by
  simp [beginStep, hf, hi]

/-- The fetch of R111. -/
theorem fetchWord_eq (s : State) :
    fetchWord s =
      if 0xFFF < s.pc.toNat + 1 then .error (max s.pc.toNat 0x1000)
      else .ok (s.byteAt s.pc.toNat ++ s.byteAt (s.pc.toNat + 1)) :=
  memReadWord_eq s s.pc.toNat

theorem Fetches.fetchWord {s : State} {w : Word} (h : Fetches s w) : fetchWord s = .ok w := by
  obtain ⟨-, -, hpc, rfl⟩ := h
  simp [fetchWord_eq, show ¬ 0xFFF < s.pc.toNat + 1 by omega]

/-- A step that fetches an instruction executes it past the fetch's advance (R111, R112). -/
theorem beginStep_instr {s : State} {w : Word} {i : Instr} (h : Fetches s w) (hd : decode w = .instr i) :
    beginStep s = .execute i (advancePc s) := by
  simp [beginStep, h.1, h.2.1, h.fetchWord, hd]

/-- A step that fetches an unrecognized word runs a no-op (R90). -/
theorem beginStep_unknown {s : State} {w u : Word} (h : Fetches s w) (hd : decode w = .unknownOpcode u) :
    beginStep s = .done (completeStep (advancePc s)) := by
  simp [beginStep, h.1, h.2.1, h.fetchWord, hd, execUnknownOpcode]

/-- A fetch that leaves the address space raises AddressingError (R62, R111). -/
theorem beginStep_fetch_error {s : State} (hf : s.fault = none) (hi : s.inputState = .running)
    (h : 0xFFF ≤ s.pc.toNat) :
    beginStep s = .done (raiseFatal s.pc .addressingError (lowestOutOfRange s.pc.toNat) s) := by
  simp [beginStep, hf, hi, fetchWord_eq, show 0xFFF < s.pc.toNat + 1 by omega, lowestOutOfRange]

/-- What a step can be: frozen, waiting, a fetch error, an unrecognized word, an instruction (R110). -/
theorem beginStep_cases (s : State) :
    (∃ f, s.fault = some f ∧ beginStep s = .done s) ∨
    (s.fault = none ∧ s.inputState = .awaitingKey ∧ beginStep s = .done (completeStep s)) ∨
    (s.fault = none ∧ s.inputState = .running ∧ 0xFFF ≤ s.pc.toNat ∧
      beginStep s = .done (raiseFatal s.pc .addressingError (lowestOutOfRange s.pc.toNat) s)) ∨
    (∃ w u, Fetches s w ∧ decode w = .unknownOpcode u ∧ beginStep s = .done (completeStep (advancePc s))) ∨
    (∃ w i, Fetches s w ∧ decode w = .instr i ∧ beginStep s = .execute i (advancePc s)) := by
  cases hf : s.fault with
  | some f => exact .inl ⟨f, rfl, beginStep_frozen hf⟩
  | none =>
    cases hi : s.inputState with
    | awaitingKey => exact .inr (.inl ⟨rfl, rfl, beginStep_awaiting hf hi⟩)
    | running =>
      by_cases h : 0xFFF ≤ s.pc.toNat
      · exact .inr (.inr (.inl ⟨rfl, rfl, h, beginStep_fetch_error hf hi h⟩))
      · have hw : Fetches s (s.byteAt s.pc.toNat ++ s.byteAt (s.pc.toNat + 1)) := ⟨hf, hi, by omega, rfl⟩
        cases hd : decode (s.byteAt s.pc.toNat ++ s.byteAt (s.pc.toNat + 1)) with
        | unknownOpcode u => exact .inr (.inr (.inr (.inl ⟨_, u, hw, hd, beginStep_unknown hw hd⟩)))
        | instr i => exact .inr (.inr (.inr (.inr ⟨_, i, hw, hd, beginStep_instr hw hd⟩)))

theorem finishStep_next_of_clear {t : State} (h : t.fault = none) :
    finishStep (.next t) = .next (completeStep t) := by
  simp [finishStep, h]

theorem finishStep_next_of_fault {t : State} {f : FaultRecord} (h : t.fault = some f) :
    finishStep (.next t) = .next t := by
  simp [finishStep, h]

/-- Where the host places an instruction is where the next step fetches it. -/
theorem fetches_withFetchWord (s : State) (nbits w : Nat) :
    Fetches (s.withFetchWord nbits w) (BitVec.ofNat 16 (w % 2 ^ nbits)) := by
  refine ⟨rfl, rfl, ?_, ?_⟩
  · simp only [State.withFetchWord, placeFetchWord]
    split <;> simp
    omega
  · have h := wordOfBytes_bytesOfWord (BitVec.ofNat 16 (w % 2 ^ nbits))
    simpa [State.withFetchWord, placeFetchWord, State.byteAt, Memory.get_set, wordOfBytes] using h

end Sys2Proof.Machine
end

