-- ==== Sys2Proof/Laws/Draw.lean ====
section
/-! SUPPORT. What a draw leaves in each cell, and when it collides (R240, R242). -/

namespace Sys2Proof.Machine

theorem cellAt_toggleCell (fb : Framebuffer) (x cx : Fin 64) (y cy : Fin 32) :
    cellAt (toggleCell fb x y) cx cy = (cellAt fb cx cy ^^ decide (cx = x ∧ cy = y)) := by
  by_cases hy : cy = y
  · subst hy
    by_cases hx : cx = x
    · subst hx
      simp [cellAt, toggleCell]
    · have : ¬ x.val = cx.val := fun h => hx (Fin.ext h.symm)
      simp [cellAt, toggleCell, Vector.getElem_set_ne, this, hx]
  · have : ¬ y.val = cy.val := fun h => hy (Fin.ext h.symm)
    simp [cellAt, toggleCell, Vector.getElem_set_ne, this, hy]

/-- One pixel toggles its cell when its bit is 1. -/
theorem cellAt_drawPixel (x y : Nat) (bit : Bool) (acc : Framebuffer × Bool) (cx : Fin 64) (cy : Fin 32) :
    cellAt (drawPixel x y bit acc).1 cx cy =
      (cellAt acc.1 cx cy ^^ (bit && decide (x % 64 = cx.val ∧ y % 32 = cy.val))) := by
  cases bit <;> simp [drawPixel, cellAt_toggleCell, wrapX, wrapY, Fin.ext_iff, eq_comm]

theorem drawPixel_hit (x y : Nat) (bit : Bool) (acc : Framebuffer × Bool) :
    (drawPixel x y bit acc).2 = (acc.2 || (bit && cellAt acc.1 (wrapX x) (wrapY y))) := by
  cases bit <;> simp [drawPixel]

/-- Do the last `k` pixels of a row cover a cell? -/
def rowCovers (x0 y : Nat) (b : Byte) (k : Nat) (cx : Fin 64) (cy : Fin 32) : Prop :=
  y % 32 = cy.val ∧ ∃ j, j < k ∧ b.getLsbD j = true ∧ (x0 + (7 - j)) % 64 = cx.val

/-- A row toggles the cells that it covers, and collides when one of them was 1. -/
theorem drawRow_spec (x0 y : Nat) (b : Byte) (k : Nat) (hk : k ≤ 8) (acc : Framebuffer × Bool) :
    (∀ cx cy, (rowCovers x0 y b k cx cy → cellAt (drawRow x0 y b k acc).1 cx cy = !cellAt acc.1 cx cy) ∧
      (¬ rowCovers x0 y b k cx cy → cellAt (drawRow x0 y b k acc).1 cx cy = cellAt acc.1 cx cy)) ∧
    ((drawRow x0 y b k acc).2 = true ↔
      acc.2 = true ∨ ∃ cx cy, rowCovers x0 y b k cx cy ∧ cellAt acc.1 cx cy = true) := by
  induction k generalizing acc with
  | zero => simp [drawRow, rowCovers]
  | succ k ih =>
    obtain ⟨ih1, ih2⟩ := ih (by omega) (drawPixel (x0 + (7 - k)) y (b.getLsbD k) acc)
    have hsplit : ∀ cx cy, rowCovers x0 y b (k + 1) cx cy ↔
        rowCovers x0 y b k cx cy ∨
          (y % 32 = cy.val ∧ b.getLsbD k = true ∧ (x0 + (7 - k)) % 64 = cx.val) := by
      intro cx cy
      constructor
      · rintro ⟨hy, j, hj, hb, hx⟩
        rcases Nat.lt_succ_iff_lt_or_eq.mp hj with h | rfl
        · exact .inl ⟨hy, j, h, hb, hx⟩
        · exact .inr ⟨hy, hb, hx⟩
      · rintro (⟨hy, j, hj, hb, hx⟩ | ⟨hy, hb, hx⟩)
        · exact ⟨hy, j, by omega, hb, hx⟩
        · exact ⟨hy, k, by omega, hb, hx⟩
    have hdisj : ∀ cx cy, rowCovers x0 y b k cx cy → ¬ (x0 + (7 - k)) % 64 = cx.val := by
      rintro cx cy ⟨-, j, hj, -, hx⟩ h
      omega
    refine ⟨fun cx cy => ?_, ?_⟩
    · obtain ⟨h1, h2⟩ := ih1 cx cy
      simp only [drawRow]
      rw [hsplit]
      by_cases hc : rowCovers x0 y b k cx cy
      · refine ⟨fun _ => ?_, fun h => absurd (.inl hc) h⟩
        rw [h1 hc, cellAt_drawPixel]
        simp [hdisj cx cy hc]
      · rw [h2 hc, cellAt_drawPixel]
        refine ⟨fun h => ?_, fun h => ?_⟩
        · obtain ⟨hy, hb, hx⟩ := h.resolve_left hc
          simp [hy, hb, hx]
        · have : ¬ (b.getLsbD k = true ∧ (x0 + (7 - k)) % 64 = cx.val ∧ y % 32 = cy.val) :=
            fun ⟨hb, hx, hy⟩ => h (.inr ⟨hy, hb, hx⟩)
          have hoff : (b.getLsbD k && decide ((x0 + (7 - k)) % 64 = cx.val ∧ y % 32 = cy.val)) = false := by
            simpa using this
          rw [hoff, Bool.xor_false]
    · simp only [drawRow]
      rw [ih2, drawPixel_hit, Bool.or_eq_true, Bool.and_eq_true, or_assoc]
      refine or_congr Iff.rfl ⟨?_, ?_⟩
      · rintro (⟨hb, hcell⟩ | ⟨cx, cy, hc, hcell⟩)
        · exact ⟨_, _, (hsplit _ _).mpr (.inr ⟨rfl, hb, rfl⟩), hcell⟩
        · refine ⟨cx, cy, (hsplit _ _).mpr (.inl hc), ?_⟩
          rw [cellAt_drawPixel] at hcell
          simpa [hdisj cx cy hc] using hcell
      · rintro ⟨cx, cy, hc, hcell⟩
        rcases (hsplit _ _).mp hc with hc | ⟨hy, hb, hx⟩
        · refine .inr ⟨cx, cy, hc, ?_⟩
          rw [cellAt_drawPixel]
          simpa [hdisj cx cy hc] using hcell
        · refine .inl ⟨hb, ?_⟩
          rwa [show wrapX (x0 + (7 - k)) = cx from Fin.ext hx, show wrapY y = cy from Fin.ext hy]

/-- Do the rows of a sprite, drawn from row `y` on, cover a cell? -/
def rowsCover (x0 y : Nat) (bs : List Byte) (cx : Fin 64) (cy : Fin 32) : Prop :=
  ∃ r b, bs[r]? = some b ∧ rowCovers x0 (y + r) b 8 cx cy

/-- A sprite of at most 32 rows toggles the cells that it covers, and collides when one of them was 1 (R242). -/
theorem drawRows_spec (x0 y : Nat) (bs : List Byte) (hlen : bs.length ≤ 32) (acc : Framebuffer × Bool) :
    (∀ cx cy, (rowsCover x0 y bs cx cy → cellAt (drawRows x0 y bs acc).1 cx cy = !cellAt acc.1 cx cy) ∧
      (¬ rowsCover x0 y bs cx cy → cellAt (drawRows x0 y bs acc).1 cx cy = cellAt acc.1 cx cy)) ∧
    ((drawRows x0 y bs acc).2 = true ↔
      acc.2 = true ∨ ∃ cx cy, rowsCover x0 y bs cx cy ∧ cellAt acc.1 cx cy = true) := by
  induction bs generalizing y acc with
  | nil => simp [drawRows, rowsCover]
  | cons b bs ih =>
    simp only [List.length_cons] at hlen
    obtain ⟨ih1, ih2⟩ := ih (y + 1) (by omega) (drawRow x0 y b 8 acc)
    obtain ⟨row1, row2⟩ := drawRow_spec x0 y b 8 (Nat.le_refl 8) acc
    have hsplit : ∀ cx cy, rowsCover x0 y (b :: bs) cx cy ↔
        rowCovers x0 y b 8 cx cy ∨ rowsCover x0 (y + 1) bs cx cy := by
      intro cx cy
      constructor
      · rintro ⟨r, c, hc, hcov⟩
        cases r with
        | zero =>
          obtain rfl : b = c := by simpa using hc
          exact .inl hcov
        | succ r => exact .inr ⟨r, c, by simpa using hc, by rwa [show y + 1 + r = y + (r + 1) by omega]⟩
      · rintro (hcov | ⟨r, c, hc, hcov⟩)
        · exact ⟨0, b, rfl, hcov⟩
        · exact ⟨r + 1, c, by simpa using hc, by rwa [show y + (r + 1) = y + 1 + r by omega]⟩
    have hdisj : ∀ cx cy, rowCovers x0 y b 8 cx cy → ¬ rowsCover x0 (y + 1) bs cx cy := by
      rintro cx cy ⟨hy, -⟩ ⟨r, c, hc, hy', -⟩
      have : r < bs.length := by
        by_contra hr
        simp [List.getElem?_eq_none (Nat.le_of_not_lt hr)] at hc
      omega
    have hcell : ∀ cx cy, rowsCover x0 (y + 1) bs cx cy →
        cellAt (drawRow x0 y b 8 acc).1 cx cy = cellAt acc.1 cx cy := fun cx cy h =>
      (row1 cx cy).2 fun h' => hdisj cx cy h' h
    refine ⟨fun cx cy => ?_, ?_⟩
    · simp only [drawRows]
      rw [hsplit]
      by_cases hrow : rowCovers x0 y b 8 cx cy
      · refine ⟨fun _ => ?_, fun h => absurd (.inl hrow) h⟩
        rw [(ih1 cx cy).2 (hdisj cx cy hrow), (row1 cx cy).1 hrow]
      · refine ⟨fun h => ?_, fun h => ?_⟩
        · rw [(ih1 cx cy).1 (h.resolve_left hrow), (row1 cx cy).2 hrow]
        · rw [(ih1 cx cy).2 fun h' => h (.inr h'), (row1 cx cy).2 hrow]
    · simp only [drawRows]
      rw [ih2, row2, or_assoc]
      refine or_congr Iff.rfl ⟨?_, ?_⟩
      · rintro (⟨cx, cy, hc, h⟩ | ⟨cx, cy, hc, h⟩)
        · exact ⟨cx, cy, (hsplit _ _).mpr (.inl hc), h⟩
        · exact ⟨cx, cy, (hsplit _ _).mpr (.inr hc), by rwa [hcell cx cy hc] at h⟩
      · rintro ⟨cx, cy, hc, h⟩
        rcases (hsplit _ _).mp hc with hc | hc
        · exact .inl ⟨cx, cy, hc, h⟩
        · exact .inr ⟨cx, cy, hc, by rwa [hcell cx cy hc]⟩

/-- The cells that the rows read at `I` cover, at the origin of two coordinate bytes, are those of the statements'
`SpriteCovers` (R240). -/
theorem rowsCover_iff_spriteCovers (s : State) (vx vy : Byte) (n : Nat) (cx : Fin 64) (cy : Fin 32) :
    rowsCover (originX vx) (originY vy) ((List.range n).map fun k => s.byteAt (baseAddress s + k)) cx cy ↔
      SpriteCovers s vx vy n cx cy := by
  constructor
  · rintro ⟨r, b, hb, hy, j, hj, hbit, hx⟩
    have hr : r < n := by
      by_contra h
      rw [List.getElem?_eq_none (by simp; omega)] at hb
      cases hb
    obtain rfl : s.byteAt (baseAddress s + r) = b := by simpa [hr] using hb
    exact ⟨r, 7 - j, hr, by omega, by rwa [show 7 - (7 - j) = j by omega], hx, hy⟩
  · rintro ⟨r, c, hr, hc, hbit, hx, hy⟩
    exact ⟨r, _, by simp [hr], hy, 7 - c, by omega, hbit, by rwa [show 7 - (7 - c) = c by omega]⟩

end Sys2Proof.Machine
end

