-- ==== Sys2Proof/Laws/Fields.lean ====
section
/-! SUPPORT. The decoder's fields are the bit fields of R81, and the decoding of a word by its family. -/

namespace Sys2Proof.Machine

theorem family_eq_wordF (w : Word) : family w = (wordF w).toNat := by
  have := w.isLt
  simp only [family, wordF, BitVec.extractLsb'_toNat, Nat.shiftRight_eq_div_pow]
  omega

theorem fieldX_eq_wordX (w : Word) : fieldX w = wordX w := by
  apply Fin.ext
  simp [fieldX, wordX, Nat.shiftRight_eq_div_pow]

theorem fieldY_eq_wordY (w : Word) : fieldY w = wordY w := by
  apply Fin.ext
  simp [fieldY, wordY, Nat.shiftRight_eq_div_pow]

theorem fieldN_eq_wordN (w : Word) : fieldN w = wordN w := by
  apply BitVec.eq_of_toNat_eq
  simp [fieldN, wordN, BitVec.extractLsb'_toNat]

theorem fieldNN_eq_wordNN (w : Word) : fieldNN w = wordNN w := by
  apply BitVec.eq_of_toNat_eq
  simp [fieldNN, wordNN, BitVec.extractLsb'_toNat]

theorem fieldNNN_eq_wordNNN (w : Word) : fieldNNN w = wordNNN w := by
  apply BitVec.eq_of_toNat_eq
  simp [fieldNNN, wordNNN, BitVec.extractLsb'_toNat]

/-- A word of family 8 decodes on N (R87). -/
theorem decode_of_family8 {w : Word} (h : wordF w = 0x8) : decode w = decode8 w := by
  have hf := family_eq_wordF w
  rw [h] at hf
  simp [decode, hf]

/-- A word of family E decodes on NN (R88). -/
theorem decode_of_familyE {w : Word} (h : wordF w = 0xE) : decode w = decodeE w := by
  have hf := family_eq_wordF w
  rw [h] at hf
  simp [decode, hf]

/-- A word of family F decodes on NN (R89). -/
theorem decode_of_familyF {w : Word} (h : wordF w = 0xF) : decode w = decodeF w := by
  have hf := family_eq_wordF w
  rw [h] at hf
  simp [decode, hf]

end Sys2Proof.Machine
end

