-- ==== Sys2Proof/Laws/Frame.lean ====
section
/-! SUPPORT. The frames of the shared updates, and what the shared operations of the meanings answer. -/

namespace Sys2Proof.Machine

theorem ChangesOnly.refl (parts : Part → Prop) (s : State) : ChangesOnly parts s s := fun p _ => by cases p <;> rfl

theorem ChangesOnly.mono {P Q : Part → Prop} {s t : State} (h : ChangesOnly P s t) (hpq : ∀ p, P p → Q p) :
    ChangesOnly Q s t := fun p hq => h p fun hp => hq (hpq p hp)

theorem setV_changesOnly (s : State) (r : Reg) (b : Byte) : ChangesOnly (fun p => p = .v r) s (s.setV r b) := by
  intro p hp
  cases p <;> simp_all [Unchanged, State.getV_setV]

theorem setPc_changesOnly (s : State) (w : Word) : ChangesOnly (fun p => p = .pc) s (s.setPc w) := by
  intro p hp
  cases p <;> simp_all [Unchanged]

theorem setI_changesOnly (s : State) (w : Word) : ChangesOnly (fun p => p = .i) s (s.setI w) := by
  intro p hp
  cases p <;> simp_all [Unchanged]

theorem setMem_changesOnly (s : State) (m : Memory) (P : Nat → Prop)
    (h : ∀ a, ¬ P a → Memory.get s.params m a = s.byteAt a) :
    ChangesOnly (fun p => ∃ a, P a ∧ p = .mem a) s (s.setMem m) := by
  intro p hp
  cases p <;> simp_all [Unchanged]

/-! ### Skips -/

theorem skipIf_pc (s : State) (c : Bool) : (skipIf c s).pc = if c then s.pc + 2 else s.pc := by
  cases c <;> rfl

theorem skipIf_changesOnly (s : State) (c : Bool) : ChangesOnly (fun p => p = .pc) s (skipIf c s) := by
  cases c
  · exact ChangesOnly.refl _ _
  · exact setPc_changesOnly _ _

/-! ### A result and its flag -/

theorem setVWithFlag_getV_vf (s : State) (x : Reg) (b f : Byte) : (setVWithFlag s x b f).getV vf = f := by
  simp [setVWithFlag]

theorem setVWithFlag_getV_of_ne (s : State) {x : Reg} (b f : Byte) (h : x ≠ vf) :
    (setVWithFlag s x b f).getV x = b := by
  simp [setVWithFlag, State.getV_setV, h]

theorem setVWithFlag_changesOnly (s : State) (x : Reg) (b f : Byte) :
    ChangesOnly (fun p => p = .v x ∨ p = .v vf) s (setVWithFlag s x b f) := by
  intro p hp
  cases p <;> simp_all [Unchanged, State.getV_setV, setVWithFlag]

/-! ### Keys -/

/-- A byte matches the tracked key exactly when there is one and it has that value (R260). -/
theorem keyMatches_iff {k : Option Key} {b : Byte} :
    keyMatches k b = true ↔ ∃ q, k = some q ∧ b.toNat = q.toNat := by
  cases k with
  | none => simp [keyMatches]
  | some q =>
    have := q.isLt
    simp only [keyMatches, zextKey, beq_iff_eq, Option.some.injEq, ← BitVec.toNat_inj (x := b),
      BitVec.toNat_setWidth, Nat.mod_eq_of_lt (show q.toNat < 2 ^ 8 by omega)]
    simp

/-- What a key press can do (R116). -/
theorem pressKey_cases (k : Key) (s : State) :
    (s.fault ≠ none ∧ pressKey k s = s) ∨
    (s.fault = none ∧ s.inputState = .running ∧ pressKey k s = s.setLastKey (some k)) ∨
    (s.fault = none ∧ s.inputState = .awaitingKey ∧ pressKey k s = resumeWithKey k (s.setLastKey (some k))) := by
  unfold pressKey
  cases hf : s.fault with
  | some f => simp
  | none => cases hi : s.inputState <;> simp

/-! ### Loading a program -/

/-- Loading a program changes memory alone, and a short enough image ends up at 0x200 (R115). -/
theorem loadProgram_eq (bytes : List Byte) (s : State) :
    ∃ m, loadProgram bytes s = s.setMem m ∧ (Memory.wf s.params s.mem → Memory.wf s.params m) ∧
      (bytes.length ≤ 3584 → ∀ x, Memory.get s.params m x =
        if 0x200 ≤ x then bytes[x - 0x200]?.getD (s.byteAt x) else s.byteAt x) := by
  unfold loadProgram
  split
  · rename_i h
    exact ⟨s.mem, rfl, id, fun hl => by simp [maxProgramLength] at h; omega⟩
  · rename_i h
    obtain ⟨m, hm, hw, hg⟩ := writeBytes_ok s 0x200 bytes (by simp [maxProgramLength] at h; omega)
    exact ⟨m, by rw [hm], hw, fun _ => hg⟩

/-- A block write, whether or not it raises, keeps the memory's canonical form. -/
theorem orAddressingError_writeBytes_wf (s : State) (a : Nat) (bs : List Byte) (hwf : Memory.wf s.params s.mem) :
    Memory.wf (orAddressingError s (writeBytes s a bs)).params (orAddressingError s (writeBytes s a bs)).mem := by
  by_cases h : a + bs.length ≤ 0x1000
  · obtain ⟨m, hm, hw, -⟩ := writeBytes_ok s a bs h
    rw [hm]
    exact hw hwf
  · by_cases hb : bs = []
    · subst hb
      exact hwf
    · rw [writeBytes_error s a bs hb (by omega)]
      exact hwf

end Sys2Proof.Machine
end

