-- ==== Sys2Proof/Laws/PerInstr.lean ====
section
/-! SUPPORT. The per-instruction family TableMatch: the word the encoder makes for a well-formed instruction matches its
row of the opcode map (R91), one lemma per constructor. -/

namespace Sys2Proof.Laws.TableMatch

/-- The encoded word of a well-formed instruction has its row's match value under its row's mask. -/
def Statement (i : Instr) : Prop := WellFormed i = true → encode i &&& (rowOf i).mask = (rowOf i).mtch

/-- A mask on a word of shape `F NNN`, field by field. -/
theorem formNNN_and (f a : Nibble) (nnn b : Imm12) : formNNN f nnn &&& formNNN a b = formNNN (f &&& a) (nnn &&& b) :=
  BitVec.and_append (x₁ := f) (x₂ := a) (y₁ := nnn) (y₂ := b)

/-- A mask on a word of shape `F X NN`, field by field, where the mask drops X. -/
theorem formXNN_and (f a : Nibble) (x : Reg) (nn b : Byte) :
    formXNN f x nn &&& formXNN a 0 b = formXNN (f &&& a) 0 (nn &&& b) := by
  have h := BitVec.and_append (x₁ := f ++ BitVec.ofNat 4 x.val) (x₂ := a ++ 0#4) (y₁ := nn) (y₂ := b)
  rw [BitVec.and_append (x₁ := f), BitVec.and_zero] at h
  exact h

/-- A mask on a word of shape `F X Y N`, field by field, where the mask drops X and Y. -/
theorem formXYN_and (f a : Nibble) (x y : Reg) (n c : Nibble) :
    formXYN f x y n &&& formXYN a 0 0 c = formXYN (f &&& a) 0 0 (n &&& c) := by
  have h := BitVec.and_append (x₁ := f ++ BitVec.ofNat 4 x.val ++ BitVec.ofNat 4 y.val) (x₂ := a ++ 0#4 ++ 0#4)
    (y₁ := n) (y₂ := c)
  rw [BitVec.and_append (y₂ := 0#4), BitVec.and_append (x₁ := f), BitVec.and_zero, BitVec.and_zero] at h
  exact h

theorem sys (nnn : Imm12) : Statement (.sys nnn) := fun _ =>
  (formNNN_and _ 0xF nnn 0#12).trans (by rw [BitVec.and_zero]; rfl)

theorem cls : Statement .cls := fun _ => by decide

theorem ret : Statement .ret := fun _ => by decide

theorem jp (nnn : Imm12) : Statement (.jp nnn) := fun _ =>
  (formNNN_and _ 0xF nnn 0#12).trans (by rw [BitVec.and_zero]; rfl)

theorem call (nnn : Imm12) : Statement (.call nnn) := fun _ =>
  (formNNN_and _ 0xF nnn 0#12).trans (by rw [BitVec.and_zero]; rfl)

theorem seImm (x : Reg) (nn : Byte) : Statement (.seImm x nn) := fun _ =>
  (formXNN_and _ 0xF x nn 0#8).trans (by rw [BitVec.and_zero]; rfl)

theorem sneImm (x : Reg) (nn : Byte) : Statement (.sneImm x nn) := fun _ =>
  (formXNN_and _ 0xF x nn 0#8).trans (by rw [BitVec.and_zero]; rfl)

theorem seReg (x y : Reg) (n : Nibble) : Statement (.seReg x y n) := fun _ =>
  (formXYN_and _ 0xF x y n 0#4).trans (by rw [BitVec.and_zero]; rfl)

theorem ldImm (x : Reg) (nn : Byte) : Statement (.ldImm x nn) := fun _ =>
  (formXNN_and _ 0xF x nn 0#8).trans (by rw [BitVec.and_zero]; rfl)

theorem addImm (x : Reg) (nn : Byte) : Statement (.addImm x nn) := fun _ =>
  (formXNN_and _ 0xF x nn 0#8).trans (by rw [BitVec.and_zero]; rfl)

theorem ldReg (x y : Reg) : Statement (.ldReg x y) := fun _ =>
  (formXYN_and _ 0xF x y _ 0xF).trans (by rfl)

theorem orReg (x y : Reg) : Statement (.orReg x y) := fun _ =>
  (formXYN_and _ 0xF x y _ 0xF).trans (by rfl)

theorem andReg (x y : Reg) : Statement (.andReg x y) := fun _ =>
  (formXYN_and _ 0xF x y _ 0xF).trans (by rfl)

theorem xorReg (x y : Reg) : Statement (.xorReg x y) := fun _ =>
  (formXYN_and _ 0xF x y _ 0xF).trans (by rfl)

theorem addReg (x y : Reg) : Statement (.addReg x y) := fun _ =>
  (formXYN_and _ 0xF x y _ 0xF).trans (by rfl)

theorem subReg (x y : Reg) : Statement (.subReg x y) := fun _ =>
  (formXYN_and _ 0xF x y _ 0xF).trans (by rfl)

theorem shrReg (x y : Reg) : Statement (.shrReg x y) := fun _ =>
  (formXYN_and _ 0xF x y _ 0xF).trans (by rfl)

theorem subnReg (x y : Reg) : Statement (.subnReg x y) := fun _ =>
  (formXYN_and _ 0xF x y _ 0xF).trans (by rfl)

theorem shlReg (x y : Reg) : Statement (.shlReg x y) := fun _ =>
  (formXYN_and _ 0xF x y _ 0xF).trans (by rfl)

theorem sneReg (x y : Reg) (n : Nibble) : Statement (.sneReg x y n) := fun _ =>
  (formXYN_and _ 0xF x y n 0#4).trans (by rw [BitVec.and_zero]; rfl)

theorem ldI (nnn : Imm12) : Statement (.ldI nnn) := fun _ =>
  (formNNN_and _ 0xF nnn 0#12).trans (by rw [BitVec.and_zero]; rfl)

theorem jpV0 (nnn : Imm12) : Statement (.jpV0 nnn) := fun _ =>
  (formNNN_and _ 0xF nnn 0#12).trans (by rw [BitVec.and_zero]; rfl)

theorem rnd (x : Reg) (nn : Byte) : Statement (.rnd x nn) := fun _ =>
  (formXNN_and _ 0xF x nn 0#8).trans (by rw [BitVec.and_zero]; rfl)

theorem drw (x y : Reg) (n : Nibble) : Statement (.drw x y n) := fun _ =>
  (formXYN_and _ 0xF x y n 0#4).trans (by rw [BitVec.and_zero]; rfl)

theorem skp (x : Reg) : Statement (.skp x) := fun _ =>
  (formXNN_and _ 0xF x _ 0xFF).trans (by rfl)

theorem sknp (x : Reg) : Statement (.sknp x) := fun _ =>
  (formXNN_and _ 0xF x _ 0xFF).trans (by rfl)

theorem ldVxDt (x : Reg) : Statement (.ldVxDt x) := fun _ =>
  (formXNN_and _ 0xF x _ 0xFF).trans (by rfl)

theorem ldVxK (x : Reg) : Statement (.ldVxK x) := fun _ =>
  (formXNN_and _ 0xF x _ 0xFF).trans (by rfl)

theorem ldDtVx (x : Reg) : Statement (.ldDtVx x) := fun _ =>
  (formXNN_and _ 0xF x _ 0xFF).trans (by rfl)

theorem ldStVx (x : Reg) : Statement (.ldStVx x) := fun _ =>
  (formXNN_and _ 0xF x _ 0xFF).trans (by rfl)

theorem addIVx (x : Reg) : Statement (.addIVx x) := fun _ =>
  (formXNN_and _ 0xF x _ 0xFF).trans (by rfl)

theorem ldFVx (x : Reg) : Statement (.ldFVx x) := fun _ =>
  (formXNN_and _ 0xF x _ 0xFF).trans (by rfl)

theorem ldBVx (x : Reg) : Statement (.ldBVx x) := fun _ =>
  (formXNN_and _ 0xF x _ 0xFF).trans (by rfl)

theorem storeRegs (x : Reg) : Statement (.storeRegs x) := fun _ =>
  (formXNN_and _ 0xF x _ 0xFF).trans (by rfl)

theorem loadRegs (x : Reg) : Statement (.loadRegs x) := fun _ =>
  (formXNN_and _ 0xF x _ 0xFF).trans (by rfl)

end Sys2Proof.Laws.TableMatch
end

