-- ==== Sys2Proof/Tests/Slice0.lean ====
section
/-! SUPPORT. Tests of the model.  Expected results come from the spec: the words from 30_encoding.md R81 and R91, the
vectors from 95_test_vectors.md (named in each comment).  The witnesses show that every statement's hypotheses are met. -/

namespace Sys2Proof.Tests

open Sys2Proof Sys2Proof.Machine

/-! ### Helpers -/

/-- A check on the state that one step leaves. -/
def after (s : State) (f : State → Bool) : Bool :=
  match step s with
  | .next t => f t
  | .fault _ => false
  | .refused _ => false

/-- The reset state with a word at 0x200, changed by `f`: the start state of a vector. -/
def vec (w : Nat) (f : State → State) : State := f (State.reset.withFetchWord 16 w)

/-- A state with so many stack entries in use. -/
def atSp (k : Fin 17) (s : State) : State := { s with sp := k }

/-- A state whose fault latch is set. -/
def frozen : State := { State.reset with fault := some ⟨.stackUnderflow, 0x200, 0⟩ }

/-- A state that awaits a key for V2. -/
def awaiting : State := { State.reset with inputState := .awaitingKey, keyTarget := 2, pc := 0x208 }

/-- A state whose framebuffer has cell (0,0) set. -/
def lit : State := State.reset.setFb (toggleCell clearFb 0 0)

/-! ### Well-formedness: the ill-formed terms are refused -/

theorem test_illformed_sys_cls : WellFormed (.sys 0x0E0) = false := by decide
theorem test_illformed_sys_ret : WellFormed (.sys 0x0EE) = false := by decide
theorem test_wellformed_sys : WellFormed (.sys 0x123) = true := by decide

/-! ### Decoding: words written out from R81 and R91 -/

theorem test_decode_family0 :
    decode 0b0000000100100011 = .instr (.sys 0x123) ∧ decode 0b0000000011100000 = .instr .cls ∧
      decode 0b0000000011101110 = .instr .ret := by decide

theorem test_decode_jumps :
    decode 0b0001010000000001 = .instr (.jp 0x401) ∧ decode 0b0010001100010000 = .instr (.call 0x310) ∧
      decode 0b1011001100000000 = .instr (.jpV0 0x300) := by decide

theorem test_decode_skips :
    decode 0b0011001000110100 = .instr (.seImm 2 0x34) ∧ decode 0b0100001000110011 = .instr (.sneImm 2 0x33) ∧
      decode 0b0101000100100001 = .instr (.seReg 1 2 1) ∧ decode 0b1001000100100101 = .instr (.sneReg 1 2 5) := by
  decide

theorem test_decode_immediates :
    decode 0b0110101001000010 = .instr (.ldImm 0xA 0x42) ∧ decode 0b0111001100000101 = .instr (.addImm 3 0x05) ∧
      decode 0b1100001100001111 = .instr (.rnd 3 0x0F) ∧ decode 0b1010001100000000 = .instr (.ldI 0x300) := by decide

theorem test_decode_family8_logic :
    decode 0b1000000100100000 = .instr (.ldReg 1 2) ∧ decode 0b1000000100100001 = .instr (.orReg 1 2) ∧
      decode 0b1000000100100010 = .instr (.andReg 1 2) ∧ decode 0b1000000100100011 = .instr (.xorReg 1 2) := by decide

theorem test_decode_family8_arith :
    decode 0b1000000100100100 = .instr (.addReg 1 2) ∧ decode 0b1000000100100101 = .instr (.subReg 1 2) ∧
      decode 0b1000000100100110 = .instr (.shrReg 1 2) ∧ decode 0b1000000100100111 = .instr (.subnReg 1 2) ∧
      decode 0b1000000100101110 = .instr (.shlReg 1 2) := by decide

theorem test_decode_drw : decode 0b1101001001010011 = .instr (.drw 2 5 3) := by decide

theorem test_decode_familyE :
    decode 0b1110001010011110 = .instr (.skp 2) ∧ decode 0b1110001110100001 = .instr (.sknp 3) := by decide

theorem test_decode_familyF :
    decode 0b1111000100000111 = .instr (.ldVxDt 1) ∧ decode 0b1111001000001010 = .instr (.ldVxK 2) ∧
      decode 0b1111000000010101 = .instr (.ldDtVx 0) ∧ decode 0b1111010000011000 = .instr (.ldStVx 4) ∧
      decode 0b1111000100011110 = .instr (.addIVx 1) ∧ decode 0b1111101000101001 = .instr (.ldFVx 0xA) ∧
      decode 0b1111011100110011 = .instr (.ldBVx 7) ∧ decode 0b1111001001010101 = .instr (.storeRegs 2) ∧
      decode 0b1111001001100101 = .instr (.loadRegs 2) := by decide

/-- Vectors TD1 to TD4. -/
theorem test_decode_unrecognized :
    decode 0x8008 = .unknownOpcode 0x8008 ∧ decode 0xE000 = .unknownOpcode 0xE000 ∧
      decode 0xF0FF = .unknownOpcode 0xF0FF ∧ decode 0x01E0 = .instr (.sys 0x1E0) := by decide

theorem test_decode_bytes_big_endian :
    decodeBytes [0xD2, 0x53, 0x12] = .ok (.drw 2 5 3, [0x12]) ∧ decodeBytes [0xD2] = .error .truncated := by decide

theorem test_decodeTableWord :
    decodeTableWord 16 0xD253 = some (.drw 2 5 3) ∧ decodeTableWord 16 0x8008 = none := by decide

/-- The rows of the opcode map but SYS. -/
def rowsButSys : List OpRow :=
  ([Instr.cls, .ret, .jp 0, .call 0, .seImm 0 0, .sneImm 0 0, .seReg 0 0 0, .ldImm 0 0, .addImm 0 0, .ldReg 0 0,
    .orReg 0 0, .andReg 0 0, .xorReg 0 0, .addReg 0 0, .subReg 0 0, .shrReg 0 0, .subnReg 0 0, .shlReg 0 0] ++
    [Instr.sneReg 0 0 0, .ldI 0, .jpV0 0, .rnd 0 0, .drw 0 0 0, .skp 0, .sknp 0, .ldVxDt 0, .ldVxK 0, .ldDtVx 0,
    .ldStVx 0, .addIVx 0, .ldFVx 0, .ldBVx 0, .storeRegs 0, .loadRegs 0]).map rowOf

/-- No two of them overlap (R91, "a word matches exactly one row"). -/
theorem test_rows_disjoint :
    rowsButSys.Pairwise fun r q => (r.mtch ^^^ q.mtch) &&& r.mask &&& q.mask ≠ 0 := by decide

/-! ### Control flow -/

/-- TC1, R140. -/
theorem test_sys : after (vec 0x0123 id) (fun t => t.pc == 0x202 && t.v == State.reset.v) = true := by decide

/-- W6 step 6, R141. -/
theorem test_ret :
    after (vec 0x00EE fun s => atSp 1 { s with stack := s.stack.set 0 0x202 })
      (fun t => t.pc == 0x202 && t.sp == 0 && t.stack[0] == 0x202) = true := by decide

/-- TC2. -/
theorem test_ret_underflow : stepResult (vec 0x00EE id) = .error ⟨.stackUnderflow, 0x200, 0⟩ := by decide

/-- TC4, W7. -/
theorem test_jp_odd : after (vec 0x1203 (atSp 3)) (fun t => t.pc == 0x203 && t.sp == 3) = true := by decide

/-- TC3, the sixteenth call. -/
theorem test_call_16 :
    after (vec 0x2200 (atSp 15)) (fun t => t.pc == 0x200 && t.sp == 16 && t.stack[15] == 0x202) = true := by decide

/-- TC3, the seventeenth call. -/
theorem test_call_overflow : stepResult (vec 0x2200 (atSp 16)) = .error ⟨.stackOverflow, 0x200, 16⟩ := by decide

/-- W8. -/
theorem test_se_imm :
    after (vec 0x3233 (·.setV 2 0x33)) (·.pc == 0x204) = true ∧ after (vec 0x3234 (·.setV 2 0x33)) (·.pc == 0x202) = true := by
  decide

/-- W8. -/
theorem test_sne_imm :
    after (vec 0x4234 (·.setV 2 0x33)) (·.pc == 0x204) = true ∧ after (vec 0x4233 (·.setV 2 0x33)) (·.pc == 0x202) = true := by
  decide

/-- TD5, TC8. -/
theorem test_se_reg :
    after (vec 0x5121 fun s => (s.setV 1 1).setV 2 1) (·.pc == 0x204) = true ∧
      after (vec 0x5330 (·.setV 3 9)) (·.pc == 0x204) = true := by decide

/-- TD6, TC9. -/
theorem test_sne_reg :
    after (vec 0x9125 fun s => (s.setV 1 1).setV 2 2) (·.pc == 0x204) = true ∧
      after (vec 0x9330 (·.setV 3 9)) (·.pc == 0x202) = true := by decide

/-- TC5, TC6. -/
theorem test_jp_v0 :
    after (vec 0xB300 (·.setV 0 0x10)) (·.pc == 0x310) = true ∧
      after (vec 0xBFFF (·.setV 0 0xFF)) (·.pc == 0x10FE) = true := by decide

/-! ### ALU -/

/-- TA1. -/
theorem test_ld_imm : after (vec 0x6A42 id) (·.getV 0xA == 0x42) = true := by decide

/-- TA2, TA3. -/
theorem test_add_imm :
    after (vec 0x7305 (·.setV 3 0xFE)) (fun t => t.getV 3 == 0x03 && t.getV vf == 0) = true ∧
      after (vec 0x7FFF (·.setV vf 1)) (·.getV vf == 0) = true := by decide

/-- TA4. -/
theorem test_ld_reg : after (vec 0x8010 (·.setV 1 0x9C)) (·.getV 0 == 0x9C) = true := by decide

/-- TA5, TA6. -/
theorem test_or :
    after (vec 0x8011 fun s => ((s.setV 0 0x0F).setV 1 0x30).setV vf 1) (fun t => t.getV 0 == 0x3F && t.getV vf == 1) =
        true ∧
      after (vec 0x8F11 fun s => (s.setV vf 1).setV 1 2) (·.getV vf == 3) = true := by decide

/-- TA7. -/
theorem test_and : after (vec 0x8012 fun s => (s.setV 0 0x3C).setV 1 0x0F) (·.getV 0 == 0x0C) = true := by decide

/-- TA8, R175's example. -/
theorem test_xor :
    after (vec 0x8003 (·.setV 0 0x5A)) (·.getV 0 == 0) = true ∧
      after (vec 0x8013 fun s => (s.setV 0 0xFF).setV 1 0x0F) (·.getV 0 == 0xF0) = true := by decide

/-- W4, three rows. -/
theorem test_add_law :
    after (vec 0x8014 fun s => (s.setV 0 0xFF).setV 1 0x02) (fun t => t.getV 0 == 0x01 && t.getV vf == 1) = true ∧
      after (vec 0x8014 fun s => (s.setV 0 0x80).setV 1 0x7F) (fun t => t.getV 0 == 0xFF && t.getV vf == 0) = true ∧
      after (vec 0x8014 fun s => (s.setV 0 0x80).setV 1 0x80) (fun t => t.getV 0 == 0 && t.getV vf == 1) = true := by
  decide

/-- TA9, TA10. -/
theorem test_add_with_vf :
    after (vec 0x8F04 fun s => (s.setV vf 0x10).setV 0 0xF5) (·.getV vf == 1) = true ∧
      after (vec 0x80F4 fun s => (s.setV 0 0xFF).setV vf 1) (fun t => t.getV 0 == 0 && t.getV vf == 1) = true := by decide

/-- W5, three rows. -/
theorem test_sub_law :
    after (vec 0x8015 fun s => (s.setV 0 0x01).setV 1 0x02) (fun t => t.getV 0 == 0xFF && t.getV vf == 0) = true ∧
      after (vec 0x8015 fun s => s.setV 0 0x07) (fun t => t.getV 0 == 0x07 && t.getV vf == 1) = true ∧
      after (vec 0x8015 fun s => (s.setV 0 0x05).setV 1 0x05) (fun t => t.getV 0 == 0 && t.getV vf == 1) = true := by
  decide

/-- TA11. -/
theorem test_sub_vf_destination :
    after (vec 0x8F05 fun s => (s.setV vf 3).setV 0 5) (·.getV vf == 0) = true := by decide

/-- TA13, TA15. -/
theorem test_shr :
    after (vec 0x8F06 (·.setV 0 0x80)) (·.getV vf == 0) = true ∧
      after (vec 0x8016 (·.setV 1 3)) (fun t => t.getV 0 == 1 && t.getV vf == 1 && t.getV 1 == 3) = true := by decide

/-- TA14. -/
theorem test_shr_vf_source :
    after (vec 0x80F6 (·.setV vf 3)) (fun t => t.getV 0 == 1 && t.getV vf == 1) = true := by decide

/-- TA16, TA17. -/
theorem test_subn :
    after (vec 0x8017 fun s => (s.setV 0 5).setV 1 3) (fun t => t.getV 0 == 0xFE && t.getV vf == 0) = true ∧
      after (vec 0x8017 fun s => (s.setV 0 3).setV 1 5) (fun t => t.getV 0 == 0x02 && t.getV vf == 1) = true := by decide

/-- TA19, TA21. -/
theorem test_shl :
    after (vec 0x821E (·.setV 1 0x81)) (fun t => t.getV 2 == 0x02 && t.getV vf == 1) = true ∧
      after (vec 0x8F1E (·.setV 1 0x40)) (·.getV vf == 0) = true := by decide

/-- TA22: the random byte is an argument here, since the model's own is free. -/
theorem test_rnd : (rndWith 0xA7 3 0x0F State.reset).getV 3 = 0x07 := by decide

/-! ### Index register and memory transfers -/

/-- TM1. -/
theorem test_ld_i : after (vec 0xA300 id) (·.i == 0x300) = true := by decide

/-- TM2, TM3. -/
theorem test_add_i :
    after (vec 0xF11E fun s => (s.setI 0x0FFF).setV 1 2) (fun t => t.i == 0x1001 && t.getV vf == 0) = true ∧
      after (vec 0xF11E fun s => (s.setI 0xFFFF).setV 1 1) (fun t => t.i == 0 && t.getV vf == 0) = true := by decide

/-- TM4, TM5. -/
theorem test_ld_f :
    after (vec 0xFA29 (·.setV 0xA 0x0A)) (·.i == 0x32) = true ∧
      after (vec 0xF329 (·.setV 3 0xFF)) (·.i == 0x04FB) = true := by decide

/-- W3, TM6. -/
theorem test_ld_b :
    after (vec 0xF733 fun s => (s.setI 0x300).setV 7 0xAB)
        (fun t => t.byteAt 0x300 == 1 && t.byteAt 0x301 == 7 && t.byteAt 0x302 == 1 && t.i == 0x300) = true ∧
      after (vec 0xF733 fun s => (s.setI 0xFFD).setV 7 123)
        (fun t => t.byteAt 0xFFD == 1 && t.byteAt 0xFFE == 2 && t.byteAt 0xFFF == 3) = true := by decide

/-- TM7: nothing is written, and the timers do not tick. -/
theorem test_ld_b_error :
    stepResult (vec 0xF733 fun s => ((s.setI 0xFFE).setV 7 123).setDt 5) = .error ⟨.addressingError, 0x200, 0x1000⟩ ∧
      after (vec 0xF733 fun s => ((s.setI 0xFFE).setV 7 123).setDt 5)
        (fun t => t.byteAt 0xFFE == 0 && t.dt == 5 && t.pc == 0x200) = true := by decide

/-- TM8, TM13. -/
theorem test_store_regs :
    after (vec 0xF255 fun s => (((s.setI 0x400).setV 0 1).setV 1 2).setV 2 3)
        (fun t => t.byteAt 0x400 == 1 && t.byteAt 0x401 == 2 && t.byteAt 0x402 == 3 && t.i == 0x400) = true ∧
      after (vec 0xF055 fun s => (s.setI 0x010).setV 0 0x77) (·.byteAt 0x010 == 0x77) = true := by decide

/-- TM9, TM10. -/
theorem test_store_regs_at_the_end :
    after (vec 0xFF55 fun s => (s.setI 0xFF0).setV vf 1) (·.byteAt 0xFFF == 1) = true ∧
      stepResult (vec 0xFF55 (·.setI 0xFF8)) = .error ⟨.addressingError, 0x200, 0x1000⟩ := by decide

/-- TM11, TM12. -/
theorem test_load_regs :
    after (vec 0xF265 fun s => (s.setMem (Memory.set s.params (Memory.set s.params s.mem 0x300 1) 0x302 6)).setI 0x300)
        (fun t => t.getV 0 == 1 && t.getV 1 == 0 && t.getV 2 == 6 && t.getV 3 == 0 && t.i == 0x300) = true ∧
      stepResult (vec 0xF065 (·.setI 0x1234)) = .error ⟨.addressingError, 0x200, 0x1234⟩ := by decide

/-! ### Framebuffer -/

/-- TD7. -/
theorem test_cls :
    after (vec 0x00E0 (·.setFb lit.fb)) (fun t => !cellAt t.fb 0 0 && !cellAt t.fb 63 31) = true := by decide

/-- TG1, TG2, with the sprite bytes FF 81 and 80 at 0x300. -/
theorem test_drw_wraps :
    after (vec 0xD012 fun s => (((s.setMem (Memory.set s.params (Memory.set s.params s.mem 0x300 0xFF) 0x301 0x81)).setI
          0x300).setV 0 60).setV 1 31)
        (fun t => cellAt t.fb 63 31 && cellAt t.fb 3 31 && !cellAt t.fb 4 31 && cellAt t.fb 60 0 && cellAt t.fb 3 0 &&
          !cellAt t.fb 61 0 && t.getV vf == 0) = true ∧
      after (vec 0xD011 fun s => (((s.setMem (Memory.set s.params s.mem 0x300 0x80)).setI 0x300).setV 0 70).setV 1 33)
        (fun t => cellAt t.fb 6 1 && !cellAt t.fb 7 1) = true := by decide

/-- TG7, TG4. -/
theorem test_drw_collision :
    after (vec 0xD011 fun s => ((s.setMem (Memory.set s.params s.mem 0x300 0x80)).setI 0x300).setFb lit.fb)
        (fun t => !cellAt t.fb 0 0 && t.getV vf == 1) = true ∧
      after (vec 0xD000 fun s => (s.setI 0x2000).setV vf 1) (fun t => t.getV vf == 0 && !cellAt t.fb 0 0) = true := by decide

/-- TG6, TG5. -/
theorem test_drw_error :
    stepResult (vec 0xD002 (·.setI 0xFFF)) = .error ⟨.addressingError, 0x200, 0x1000⟩ ∧
      stepResult (vec 0xD001 (·.setI 0xFFF)) = .ok := by decide

/-! ### Keys and timers -/

/-- TK1 to TK3, from PC0 = 0x200. -/
theorem test_skp :
    after (vec 0xE29E fun s => (s.setLastKey (some 7)).setV 2 7) (fun t => t.pc == 0x204 && t.lastKey == some 7) = true ∧
      after (vec 0xE29E fun s => (s.setLastKey (some 7)).setV 2 6) (fun t => t.pc == 0x202 && t.lastKey == none) = true ∧
      after (vec 0xE29E id) (fun t => t.pc == 0x202 && t.lastKey == none) = true := by decide

/-- TK4, TK5, from PC0 = 0x200. -/
theorem test_sknp :
    after (vec 0xE3A1 fun s => (s.setLastKey (some 7)).setV 3 1) (fun t => t.pc == 0x204 && t.lastKey == none) = true ∧
      after (vec 0xE3A1 fun s => (s.setLastKey (some 7)).setV 3 7) (fun t => t.pc == 0x202 && t.lastKey == some 7) =
        true := by decide

/-- TK6. -/
theorem test_ld_vx_dt : after (vec 0xF107 (·.setDt 2)) (fun t => t.getV 1 == 2 && t.dt == 1) = true := by decide

/-- TK7. -/
theorem test_ld_dt_vx : after (vec 0xF015 (·.setV 0 3)) (·.dt == 2) = true := by decide

/-- TK8, TK9. -/
theorem test_ld_st_vx :
    after (vec 0xF418 (·.setV 4 1)) (fun t => t.st == 0 && !soundActive t) = true ∧
      after (vec 0xF418 (·.setV 4 2)) (fun t => t.st == 1 && soundActive t) = true := by decide

/-- TK10 (from PC0 = 0x200), TK11. -/
theorem test_ld_vx_k :
    after (vec 0xF20A id) (fun t => isAwaitingKey t && t.keyTarget == 2 && t.pc == 0x202) = true ∧
      after (awaiting.setDt 4) (fun t => t.pc == 0x208 && t.dt == 3 && isAwaitingKey t) = true := by decide

/-! ### The step and the host's operations -/

/-- TH1 step 2, TH2, TC6 step 2. -/
theorem test_fetch_errors :
    stepResult (State.reset.setPc 0x1000) = .error ⟨.addressingError, 0x1000, 0x1000⟩ ∧
      stepResult (State.reset.setPc 0xFFF) = .error ⟨.addressingError, 0xFFF, 0x1000⟩ ∧
      stepResult (State.reset.setPc 0x10FE) = .error ⟨.addressingError, 0x10FE, 0x10FE⟩ := by decide

/-- TH3. -/
theorem test_halted : stepResult (frozen.setDt 9) = .halted ∧ after (frozen.setDt 9) (·.dt == 9) = true := by decide

/-- TK12 with both values of AWAIT_RESUME_PC_ADVANCE. -/
theorem test_press_key :
    ((pressKey 7 awaiting).getV 2 = 7 ∧ (pressKey 7 awaiting).lastKey = some 7 ∧ (pressKey 7 awaiting).pc = 0x208) ∧
      (pressKey 7 { awaiting with params := ⟨defaultFontRom, .two⟩ }).pc = 0x20A := by decide

/-- TK13, TH4. -/
theorem test_press_key_running :
    pressKey 3 State.reset = State.reset.setLastKey (some 3) ∧ pressKey 1 frozen = frozen := by decide

/-- The boot of R332 with P1's first word. -/
theorem test_boot :
    after (loadProgram [0x60, 0x05, 0x61, 0x00] State.reset) (fun t => t.getV 0 == 5 && t.pc == 0x202) = true := by decide

/-- TH6. -/
theorem test_load_refused :
    ∀ bytes : List Byte, bytes.length = 3585 → opResult (.loadProgram bytes) State.reset = .refused :=
  fun _ h => if_pos (by rw [h]; decide)

/-- R31: glyph 1 at 0x005, and 0x00 behind the font. -/
theorem test_reset_font :
    State.reset.byteAt 5 = 0x20 ∧ State.reset.byteAt 9 = 0x70 ∧ State.reset.byteAt 79 = 0x80 ∧
      State.reset.byteAt 80 = 0 := by decide

/-- R39: the encodings of the control state. -/
theorem test_control_bits :
    lastKeyBits none = 0x10 ∧ lastKeyBits (some 0xF) = 0x0F ∧ faultKindBits none = 0 ∧
      faultKindBits (some ⟨.stackOverflow, 0, 16⟩) = 2 ∧ spBits (atSp 16 State.reset) = 0x10 ∧
      inputStateBit .awaitingKey = 1 := by decide

/-! ### Witnesses: each statement's hypotheses are met, clause by clause, at the ends of their ranges

Boundary words of a family are its first and its last. -/

theorem witness_DecodeUndoesEncode :
    WellFormed (.sys 0xFFF) = true ∧ WellFormed (.sys 0x0E1) = true ∧ WellFormed (.loadRegs 15) = true := by decide

theorem witness_EncodeUndoesDecode :
    decode 0x0000 = .instr (.sys 0) ∧ decode 0xFF65 = .instr (.loadRegs 15) := by decide

theorem witness_DecodedWordMatchesItsRow :
    decode 0x00EE = .instr .ret ∧ decode 0x9FFF = .instr (.sneReg 15 15 15) := by decide

theorem witness_UnrecognizedWordsAreNoOps :
    Fetches (vec 0x8FFF id) 0x8FFF ∧ decode 0x8FFF = .unknownOpcode 0x8FFF ∧
      Fetches (vec 0xF000 id) 0xF000 ∧ decode 0xF000 = .unknownOpcode 0xF000 ∧
      Fetches (vec 0xE0A2 (·.setPc 0x200)) 0xE0A2 ∧ decode 0xE0A2 = .unknownOpcode 0xE0A2 :=
  ⟨⟨rfl, rfl, by decide, by decide⟩, by decide, ⟨rfl, rfl, by decide, by decide⟩, by decide,
    ⟨rfl, rfl, by decide, by decide⟩, by decide⟩

theorem witness_SysDoesNothing :
    (wordF 0x0000 = 0x0 ∧ (0x0000 : Word) ≠ 0x00E0 ∧ (0x0000 : Word) ≠ 0x00EE) ∧
      (wordF 0x0FFF = 0x0 ∧ (0x0FFF : Word) ≠ 0x00E0 ∧ (0x0FFF : Word) ≠ 0x00EE) := by decide

theorem witness_RetPopsOrUnderflows :
    (atSp 1 State.reset).sp.val = (0 : Fin 16).val + 1 ∧ (atSp 16 State.reset).sp.val = (15 : Fin 16).val + 1 ∧
      (atSp 0 State.reset).sp.val = 0 := by decide

theorem witness_JpSetsPc : wordF 0x1000 = 0x1 ∧ wordF 0x1FFF = 0x1 := by decide

theorem witness_CallPushesOrOverflows :
    (wordF 0x2000 = 0x2 ∧ wordF 0x2FFF = 0x2) ∧ (atSp 0 State.reset).sp.val = (0 : Fin 16).val ∧
      (atSp 15 State.reset).sp.val = (15 : Fin 16).val ∧ (atSp 16 State.reset).sp.val = 16 := by decide

theorem witness_SeImmSkipsOnEqual :
    (wordF 0x3000 = 0x3 ∧ wordF 0x3FFF = 0x3) ∧
      Fetches ((State.reset.setPc 0xFFE).withFetchWord 16 0x3000) 0x3000 :=
  ⟨by decide, ⟨rfl, rfl, by decide, by decide⟩⟩

theorem witness_SneImmSkipsOnDifferent : wordF 0x4000 = 0x4 ∧ wordF 0x4FFF = 0x4 := by decide

theorem witness_SeRegSkipsOnEqual : wordF 0x5000 = 0x5 ∧ wordF 0x5FFF = 0x5 := by decide

theorem witness_SneRegSkipsOnDifferent : wordF 0x9000 = 0x9 ∧ wordF 0x9FFF = 0x9 := by decide

theorem witness_JpV0AddsV0 : wordF 0xB000 = 0xB ∧ wordF 0xBFFF = 0xB := by decide

theorem witness_LdImmLoadsByte : wordF 0x6000 = 0x6 ∧ wordF 0x6FFF = 0x6 := by decide

theorem witness_AddImmWrapsWithoutFlag : wordF 0x7000 = 0x7 ∧ wordF 0x7FFF = 0x7 := by decide

theorem witness_LdRegCopies :
    (wordF 0x8000 = 0x8 ∧ wordN 0x8000 = 0x0) ∧ (wordF 0x8FF0 = 0x8 ∧ wordN 0x8FF0 = 0x0) := by decide

theorem witness_LogicOpsCombineBits :
    (wordF 0x8FF1 = 0x8 ∧ wordN 0x8FF1 = 0x1) ∧ (wordF 0x8FF2 = 0x8 ∧ wordN 0x8FF2 = 0x2) ∧
      (wordF 0x8FF3 = 0x8 ∧ wordN 0x8FF3 = 0x3) := by decide

/-- The word clause, and both sides of X = F. -/
theorem witness_AddRegSetsCarry : (wordF 0x8FF4 = 0x8 ∧ wordN 0x8FF4 = 0x4) ∧ (14 : Reg) ≠ vf := by decide

theorem witness_SubRegSetsNotBorrow : (wordF 0x8FF5 = 0x8 ∧ wordN 0x8FF5 = 0x5) ∧ (14 : Reg) ≠ vf := by decide

theorem witness_ShrShiftsVyRight : (wordF 0x8FF6 = 0x8 ∧ wordN 0x8FF6 = 0x6) ∧ (14 : Reg) ≠ vf := by decide

theorem witness_SubnRegSetsNotBorrow : (wordF 0x8FF7 = 0x8 ∧ wordN 0x8FF7 = 0x7) ∧ (14 : Reg) ≠ vf := by decide

theorem witness_ShlShiftsVyLeft : (wordF 0x8FFE = 0x8 ∧ wordN 0x8FFE = 0xE) ∧ (14 : Reg) ≠ vf := by decide

theorem witness_RndMasksOfferedByte : wordF 0xC000 = 0xC ∧ wordF 0xCFFF = 0xC := by decide

theorem witness_LdISetsIndex : wordF 0xA000 = 0xA ∧ wordF 0xAFFF = 0xA := by decide

theorem witness_AddIWrapsWithoutFlag : wordF 0xFF1E = 0xF ∧ wordNN 0xFF1E = 0x1E := by decide

theorem witness_LdFPointsToGlyph : wordF 0xFF29 = 0xF ∧ wordNN 0xFF29 = 0x29 := by decide

theorem witness_LdBStoresDigits :
    (wordF 0xFF33 = 0xF ∧ wordNN 0xFF33 = 0x33) ∧ baseAddress (State.reset.setI 0xFFD) + 2 ≤ 0xFFF ∧
      baseAddress (State.reset.setI 0xFFE) + 2 > 0xFFF ∧ baseAddress (State.reset.setI 0xFFFF) + 2 > 0xFFF := by decide

theorem witness_StoreRegsStoresBlock :
    (wordF 0xFF55 = 0xF ∧ wordNN 0xFF55 = 0x55) ∧ baseAddress (State.reset.setI 0xFF0) + (15 : Reg).val ≤ 0xFFF ∧
      baseAddress (State.reset.setI 0xFFF) + (0 : Reg).val ≤ 0xFFF ∧
      baseAddress (State.reset.setI 0xFF1) + (15 : Reg).val > 0xFFF ∧
      baseAddress (State.reset.setI 0xFFFF) + (0 : Reg).val > 0xFFF := by decide

theorem witness_LoadRegsLoadsBlock :
    (wordF 0xFF65 = 0xF ∧ wordNN 0xFF65 = 0x65) ∧ baseAddress (State.reset.setI 0xFF0) + (15 : Reg).val ≤ 0xFFF ∧
      baseAddress (State.reset.setI 0xFFF) + (0 : Reg).val ≤ 0xFFF ∧
      baseAddress (State.reset.setI 0xFF1) + (15 : Reg).val > 0xFFF ∧
      baseAddress (State.reset.setI 0xFFFF) + (0 : Reg).val > 0xFFF := by decide

/-- The state before and after one block store, and the registers overwritten in between. -/
theorem witness_BlockLoadRestoresBlockStore :
    baseAddress (State.reset.setI 0xFF0) + (15 : Reg).val ≤ 0xFFF ∧
      ∃ t, exec (.storeRegs 15) (State.reset.setI 0xFF0) = .next t ∧
        ∃ u : State, u.i = t.i ∧ (∀ a, u.byteAt a = t.byteAt a) ∧ u.getV 3 ≠ t.getV 3 :=
  ⟨by decide, _, rfl, State.setV _ 3 9, rfl, fun _ => rfl, by decide⟩

/-- N = 0 with I anywhere, the last row readable, and the first one not. -/
theorem witness_DrwTogglesCoveredCells :
    (wordF 0xD000 = 0xD ∧ wordF 0xDFFF = 0xD) ∧
      ((0 : Nibble) = 0 ∨ baseAddress (State.reset.setI 0x2000) + (0 : Nibble).toNat - 1 ≤ 0xFFF) ∧
      ((15 : Nibble) = 0 ∨ baseAddress (State.reset.setI 0xFF1) + (15 : Nibble).toNat - 1 ≤ 0xFFF) ∧
      (1 ≤ (15 : Nibble).toNat ∧ baseAddress (State.reset.setI 0xFF2) + (15 : Nibble).toNat - 1 > 0xFFF) ∧
      (1 ≤ (1 : Nibble).toNat ∧ baseAddress (State.reset.setI 0x1000) + (1 : Nibble).toNat - 1 > 0xFFF) := by decide

/-- A covered cell of glyph 0 at (0,0), and one that is not. -/
theorem witness_SpriteCovers :
    SpriteCovers State.reset 0 0 5 0 0 ∧ ¬ SpriteCovers State.reset 0 0 0 0 0 :=
  ⟨⟨0, 0, by decide, by decide, by decide, by decide, by decide⟩, fun ⟨_, _, h, _⟩ => absurd h (Nat.not_lt_zero _)⟩

/-- The second draw straight after the first, and one with X = F where the first draw took VF from 64 to 0. -/
theorem witness_SecondDrawRestoresScreen :
    (∃ t u : State, State.reset.fault = none ∧ exec (.drw 0 1 5) State.reset = .next t ∧ t.fault = none ∧
      t.i = State.reset.i ∧ (∀ a, t.byteAt a = State.reset.byteAt a) ∧
      (t.getV 0).toNat % 64 = (State.reset.getV 0).toNat % 64 ∧
      (t.getV 1).toNat % 32 = (State.reset.getV 1).toNat % 32 ∧ exec (.drw 0 1 5) t = .next u) ∧
    (let s := State.reset.setV vf 64
     ∃ t u : State, s.fault = none ∧ exec (.drw 15 1 1) s = .next t ∧ t.fault = none ∧
      t.i = s.i ∧ (∀ a, t.byteAt a = s.byteAt a) ∧ t.getV 15 ≠ s.getV 15 ∧
      (t.getV 15).toNat % 64 = (s.getV 15).toNat % 64 ∧ (t.getV 1).toNat % 32 = (s.getV 1).toNat % 32 ∧
      exec (.drw 15 1 1) t = .next u) :=
  ⟨⟨_, _, rfl, rfl, by decide, by decide, fun _ => rfl, by decide, by decide, rfl⟩,
    ⟨_, _, rfl, rfl, by decide, by decide, fun _ => rfl, by decide, by decide, by decide, rfl⟩⟩

theorem witness_SkpSkipsOnTrackedKey :
    (wordF 0xEF9E = 0xE ∧ wordNN 0xEF9E = 0x9E) ∧
      (let s := (State.reset.setLastKey (some 15)).setV 2 15; s.lastKey = some 15 ∧ (s.getV 2).toNat = (15 : Key).toNat) ∧
      (let s := (State.reset.setLastKey (some 15)).setV 2 0x1F; ∀ k, s.lastKey = some k → (s.getV 2).toNat ≠ k.toNat) ∧
      (∀ k, State.reset.lastKey = some k → (State.reset.getV 2).toNat ≠ k.toNat) := by decide

theorem witness_SknpSkipsOnOtherKey :
    (wordF 0xEFA1 = 0xE ∧ wordNN 0xEFA1 = 0xA1) ∧
      (let s := (State.reset.setLastKey (some 15)).setV 2 15; s.lastKey = some 15 ∧ (s.getV 2).toNat = (15 : Key).toNat) ∧
      (let s := (State.reset.setLastKey (some 15)).setV 2 0x1F; ∀ k, s.lastKey = some k → (s.getV 2).toNat ≠ k.toNat) ∧
      (∀ k, State.reset.lastKey = some k → (State.reset.getV 2).toNat ≠ k.toNat) := by decide

theorem witness_LdVxDtReadsBeforeTick :
    (wordF 0xFF07 = 0xF ∧ wordNN 0xFF07 = 0x07) ∧ Fetches (vec 0xFF07 id) (encode (.ldVxDt 15)) :=
  ⟨by decide, ⟨rfl, rfl, by decide, by decide⟩⟩

theorem witness_LdVxKAwaitsKey : wordF 0xFF0A = 0xF ∧ wordNN 0xFF0A = 0x0A := by decide

theorem witness_LdDtVxIsTickedAtOnce :
    (wordF 0xFF15 = 0xF ∧ wordNN 0xFF15 = 0x15) ∧ Fetches (vec 0xFF15 id) (encode (.ldDtVx 15)) :=
  ⟨by decide, ⟨rfl, rfl, by decide, by decide⟩⟩

theorem witness_LdStVxIsTickedAtOnce :
    (wordF 0xFF18 = 0xF ∧ wordNN 0xFF18 = 0x18) ∧ Fetches (vec 0xFF18 id) (encode (.ldStVx 15)) :=
  ⟨by decide, ⟨rfl, rfl, by decide, by decide⟩⟩

/-- An instruction that completes at the last PC a fetch accepts, one that raises, and the first PC it does not. -/
theorem witness_StepRunsDecodedInstruction :
    (∃ s t : State, Fetches s 0x6A42 ∧ decode 0x6A42 = .instr (.ldImm 0xA 0x42) ∧ s.pc = 0xFFE ∧
      exec (.ldImm 0xA 0x42) { s with pc := s.pc + 2 } = .next t ∧ t.fault = none) ∧
    (∃ s t : State, Fetches s 0x00EE ∧ decode 0x00EE = .instr .ret ∧
      exec .ret { s with pc := s.pc + 2 } = .next t ∧ t.fault ≠ none) ∧
    (State.reset.setPc 0xFFF).fault = none ∧ (State.reset.setPc 0xFFF).inputState = .running ∧
      (State.reset.setPc 0xFFF).pc.toNat + 1 > 0xFFF :=
  ⟨⟨(State.reset.setPc 0xFFE).withFetchWord 16 0x6A42, _, ⟨rfl, rfl, by decide, by decide⟩, by decide, by decide, rfl,
      by decide⟩,
    ⟨vec 0x00EE id, _, ⟨rfl, rfl, by decide, by decide⟩, by decide, rfl, by decide⟩, rfl, rfl, by decide⟩

theorem witness_ByteAccessesReadAndWrite : 0x1000 > 0xFFF ∧ 0xFFF ≤ 0xFFF ∧ 0 ≤ 0xFFF := by decide

theorem witness_FrozenUntilReset :
    frozen.fault = some ⟨.stackUnderflow, 0x200, 0⟩ ∧ HostOp.pressKey 15 ≠ .reset ∧
      ∃ t, applyOp (.pressKey 15) frozen = .next t :=
  ⟨rfl, by decide, _, rfl⟩

/-- The fetch of this state's PC would raise. -/
theorem witness_AwaitingStepOnlyTicks :
    (awaiting.setPc 0xFFF).fault = none ∧ (awaiting.setPc 0xFFF).inputState = .awaitingKey := by decide

theorem witness_FatalErrorRollsBackStep :
    (vec 0x00EE id).fault = none ∧
      ∃ t, step (vec 0x00EE id) = .next t ∧ t.fault = some ⟨.stackUnderflow, 0x200, 0⟩ :=
  ⟨rfl, _, rfl, by decide⟩

/-- Each row of the table of R291, at its first raising value. -/
theorem witness_FatalErrorsAreTheTabledOnes :
    State.reset.fault = none ∧ fatalOf .ret (atSp 0 State.reset) = some (.stackUnderflow, 0) ∧
      fatalOf (.call 0) (atSp 16 State.reset) = some (.stackOverflow, 16) ∧
      fatalOf (.drw 0 0 2) (State.reset.setI 0xFFF) = some (.addressingError, 0x1000) ∧
      fatalOf (.ldBVx 0) (State.reset.setI 0xFFE) = some (.addressingError, 0x1000) ∧
      fatalOf (.storeRegs 15) (State.reset.setI 0xFF1) = some (.addressingError, 0x1000) ∧
      fatalOf (.loadRegs 0) (State.reset.setI 0x1234) = some (.addressingError, 0x1234) ∧
      (State.reset.setPc 0xFFF).fault = none ∧ (State.reset.setPc 0xFFF).inputState = .running ∧
      (State.reset.setPc 0xFFF).pc.toNat + 1 > 0xFFF := by decide

theorem witness_InstructionsWriteOnlyTheirTargets :
    (∃ t, exec (.storeRegs 15) (State.reset.setI 0xFF0) = .next t) ∧
      fatalOf (.storeRegs 15) (State.reset.setI 0xFF0) = none ∧
      (∃ t, exec (.storeRegs 15) (State.reset.setI 0xFF1) = .next t) ∧
      fatalOf (.storeRegs 15) (State.reset.setI 0xFF1) ≠ none :=
  ⟨⟨_, rfl⟩, by decide, ⟨_, rfl⟩, by decide⟩

/-- One instruction of each line of the conclusion. -/
theorem witness_OnlyNamedInstructionsChangeVf :
    (∃ t, exec (.subReg 0 1) State.reset = .next t ∧ t.getV vf ≠ State.reset.getV vf) ∧
      (∃ t, exec (.drw 0 0 1) (State.reset.setFb lit.fb) = .next t ∧ t.getV vf ≠ (State.reset.setFb lit.fb).getV vf) ∧
      (∃ t, exec (.ldImm vf 1) State.reset = .next t ∧ t.getV vf ≠ State.reset.getV vf) ∧
      (∃ t, exec (.ldReg vf 0) (State.reset.setV 0 1) = .next t ∧ t.getV vf ≠ (State.reset.setV 0 1).getV vf) ∧
      (∃ t, exec (.loadRegs vf) State.reset = .next t ∧ t.getV vf ≠ State.reset.getV vf) :=
  ⟨⟨_, rfl, by decide⟩, ⟨_, rfl, by decide⟩, ⟨_, rfl, by decide⟩, ⟨_, rfl, by decide⟩, ⟨_, rfl, by decide⟩⟩

/-- An ordinary step, one that loads each timer, and one that faults. -/
theorem witness_TimersTickOncePerStep :
    (∃ t, step ((vec 0x6A42 id).setDt 1) = .next t ∧ t.fault = none ∧
      (∀ w x, Fetches ((vec 0x6A42 id).setDt 1) w → decode w ≠ .instr (.ldDtVx x)) ∧
      (∀ w x, Fetches ((vec 0x6A42 id).setDt 1) w → decode w ≠ .instr (.ldStVx x))) ∧
    (∃ t, step (vec 0xF015 id) = .next t ∧ Fetches (vec 0xF015 id) 0xF015 ∧ decode 0xF015 = .instr (.ldDtVx 0)) ∧
    (∃ t, step (vec 0xF418 id) = .next t ∧ Fetches (vec 0xF418 id) 0xF418 ∧ decode 0xF418 = .instr (.ldStVx 4)) ∧
    (∃ t, step (vec 0x00EE id) = .next t ∧ t.fault ≠ none) :=
  ⟨⟨_, rfl, by decide,
      fun _ _ h => by
        rw [← h.2.2.2]
        exact ne_of_eq_of_ne (b := .instr (.ldImm 0xA 0x42)) (by decide) (by simp),
      fun _ _ h => by
        rw [← h.2.2.2]
        exact ne_of_eq_of_ne (b := .instr (.ldImm 0xA 0x42)) (by decide) (by simp)⟩,
    ⟨_, rfl, ⟨rfl, rfl, by decide, by decide⟩, by decide⟩, ⟨_, rfl, ⟨rfl, rfl, by decide, by decide⟩, by decide⟩,
    ⟨_, rfl, by decide⟩⟩

/-- Entering by FX0A, leaving by a key and by a reset, and a waiting step. -/
theorem witness_InputStateChangesOnlyByFx0aAndKey :
    (∃ t, applyOp .step (vec 0xFF0A id) = .next t ∧ (vec 0xFF0A id).inputState = .running ∧
      t.inputState = .awaitingKey) ∧
    (∃ t, applyOp (.pressKey 15) awaiting = .next t ∧ awaiting.inputState = .awaitingKey ∧ t.inputState = .running) ∧
    (∃ t, applyOp .reset awaiting = .next t ∧ t.inputState = .running) ∧ (∃ t, step awaiting = .next t) :=
  ⟨⟨_, rfl, rfl, by decide⟩, ⟨_, rfl, rfl, by decide⟩, ⟨_, rfl, by decide⟩, ⟨_, rfl⟩⟩

/-- The sixteenth call, with PC changed before the return. -/
theorem witness_RetUndoesCall :
    (atSp 15 State.reset).sp.val < 16 ∧
      ∃ t, exec (.call 0xFFF) (atSp 15 State.reset) = .next t ∧
        ∃ u : State, u.sp = t.sp ∧ u.stack = t.stack ∧ u.pc ≠ t.pc :=
  ⟨by decide, _, rfl, State.setPc _ 0x345, rfl, rfl, by decide⟩

/-- The last two bytes of the longest block, at the end of memory. -/
theorem witness_FetchSeesBlockStore :
    let s := (State.reset.setI 0xFF0).setPc 0xFFE
    baseAddress s + (15 : Reg).val ≤ 0xFFF ∧ (15 : Reg).val = (14 : Reg).val + 1 ∧ (15 : Reg) ≤ 15 ∧
      ∃ t, exec (.storeRegs 15) s = .next t ∧ t.pc.toNat = baseAddress s + (14 : Reg).val :=
  ⟨by decide, by decide, by decide, _, rfl, by decide⟩

theorem witness_PressKeyDeliversKey :
    frozen.fault ≠ none ∧ (State.reset.fault = none ∧ State.reset.inputState = .running) ∧
      (awaiting.fault = none ∧ awaiting.inputState = .awaitingKey) := by decide

theorem witness_LoadProgramCopiesImage :
    (List.replicate 3585 (0 : Byte)).length > 3584 ∧ (List.replicate 3584 (0 : Byte)).length ≤ 3584 ∧
      (List.replicate 3584 (7 : Byte))[3583]? = some 7 := by
  rw [List.length_replicate, List.length_replicate, List.getElem?_replicate]
  decide

theorem witness_ProbesOnlyRead : HostOp.framebufferSnapshot = .framebufferSnapshot ∨ HostOp.framebufferSnapshot = .isAwaitingKey ∨
    HostOp.framebufferSnapshot = .faultStatus ∨ HostOp.framebufferSnapshot = .soundActive := .inl rfl

theorem witness_StepReportsItsResult :
    frozen.fault ≠ none ∧
      (∃ t, (vec 0x2200 (atSp 16)).fault = none ∧ step (vec 0x2200 (atSp 16)) = .next t ∧
        t.fault = some ⟨.stackOverflow, 0x200, 16⟩) ∧
      (∃ t, Fetches (vec 0x1FFF id) 0x1FFF ∧ decode 0x1FFF = .instr (.jp 0xFFF) ∧ step (vec 0x1FFF id) = .next t ∧
        t.fault = none) ∧
      (awaiting.fault = none ∧ awaiting.inputState = .awaitingKey) :=
  ⟨by decide, ⟨_, rfl, rfl, by decide⟩, ⟨_, ⟨rfl, rfl, by decide, by decide⟩, by decide, rfl, by decide⟩, by decide⟩

theorem witness_ResetState : (79 : Nat) < 80 ∧ 80 ≤ (80 : Nat) := by decide

/-- The invariant holds with a clear latch and with a set one, and a step follows. -/
theorem witness_StepKeepsInvariant :
    Inv State.reset ∧ Inv frozen ∧ ∃ t, step State.reset = .next t :=
  ⟨⟨by decide, fun _ h => by simp [State.reset, State.resetWith] at h⟩,
    ⟨by decide, fun f h => by
      have h' : f = ⟨.stackUnderflow, 0x200, 0⟩ := by simpa [frozen] using h.symm
      subst h'
      exact ⟨rfl, rfl, rfl⟩⟩, _, rfl⟩

theorem witness_HostOperationsKeepInvariant :
    HostOp.pressKey 0 ≠ .step ∧ Inv State.reset ∧ ∃ t, applyOp (.pressKey 0) State.reset = .next t :=
  ⟨by decide, witness_StepKeepsInvariant.1, _, rfl⟩

/-- The bounds hold at reset and at their largest values. -/
theorem witness_PcAdditionsNeverWrap :
    PcBounded State.reset ∧ PcBounded (State.reset.setPc 0x10FE) ∧ PcBounded (awaiting.setPc 0x1000) ∧
      ∃ t, applyOp .step State.reset = .next t :=
  ⟨⟨by decide, fun _ => by decide, by decide⟩, ⟨by decide, fun h => absurd h (by decide), by decide⟩,
    ⟨by decide, fun _ => by decide, by decide⟩, _, rfl⟩

end Sys2Proof.Tests
end

/-! PROOFS. The input state: what each instruction, step and host operation does to it (R35, R114, R116, R124, R265). -/

namespace Sys2Proof.Machine

/-! ### Shared operations leave the input state alone -/

@[simp] theorem skipIf_inputState (c : Bool) (s : State) : (skipIf c s).inputState = s.inputState := by
  cases c <;> rfl

@[simp] theorem writeRegs_inputState (s : State) (r : Nat) (bs : List Byte) :
    (writeRegs s r bs).inputState = s.inputState := by
  rw [writeRegs_eq]

theorem popStack_inputState {s t : State} {w : Word} (h : popStack s = some (w, t)) :
    t.inputState = s.inputState := by
  unfold popStack at h
  split at h
  · cases h
  · cases h
    rfl

theorem pushStack_inputState {s t : State} {w : Word} (h : pushStack s w = some t) :
    t.inputState = s.inputState := by
  unfold pushStack at h
  split at h
  · cases h
    rfl
  · cases h

theorem writeBytes_inputState {s t : State} {a : Nat} {bs : List Byte} (h : writeBytes s a bs = .ok t) :
    t.inputState = s.inputState := by
  by_cases hbs : bs = []
  · subst hbs
    cases h
    rfl
  · by_cases hfit : a + bs.length ≤ 0x1000
    · obtain ⟨m, hm, -, -⟩ := writeBytes_ok s a bs hfit
      rw [hm] at h
      cases h
      rfl
    · rw [writeBytes_error s a bs hbs (by omega)] at h
      cases h

/-- A handler that may raise AddressingError keeps the input state if its completing state does: raising keeps it. -/
theorem orAddressingError_inputState {s : State} {r : Except Nat State}
    (h : ∀ t, r = .ok t → t.inputState = s.inputState) : (orAddressingError s r).inputState = s.inputState := by
  cases r with
  | ok t => exact h t rfl
  | error a => rfl

/-- The same for a handler that first reads and then writes what it read. -/
theorem orAddressingError_map_inputState {α : Type} (s : State) (r : Except Nat α) {f : α → State}
    (h : ∀ a, (f a).inputState = s.inputState) : (orAddressingError s (r.map f)).inputState = s.inputState := by
  cases r with
  | ok a => exact h a
  | error e => rfl

theorem loadProgram_inputState (bytes : List Byte) (s : State) :
    (loadProgram bytes s).inputState = s.inputState := by
  obtain ⟨m, hm, -, -⟩ := loadProgram_eq bytes s
  rw [hm, State.setMem_inputState]

/-! ### Instructions -/

/-- FX0A starts the wait for a key and names its target (R265). -/
theorem exec_ldVxK (x : Reg) (s : State) :
    exec (.ldVxK x) s = .next { s with inputState := .awaitingKey, keyTarget := x } := rfl

theorem execRet_keeps_inputState (s : State) : ∃ t, execRet s = .next t ∧ t.inputState = s.inputState := by
  unfold execRet
  cases h : popStack s with
  | none => exact ⟨_, rfl, rfl⟩
  | some p => exact ⟨_, rfl, (popStack_inputState h :)⟩

theorem execCall_keeps_inputState (nnn : Imm12) (s : State) :
    ∃ t, execCall nnn s = .next t ∧ t.inputState = s.inputState := by
  unfold execCall
  cases h : pushStack s s.pc with
  | none => exact ⟨_, rfl, rfl⟩
  | some u => exact ⟨_, rfl, (pushStack_inputState h :)⟩

/-- No instruction but FX0A touches the input state, whether it completes or raises (R35). -/
theorem exec_keeps_inputState {i : Instr} (s : State) (hi : ∀ x, i ≠ .ldVxK x) :
    ∃ t, exec i s = .next t ∧ t.inputState = s.inputState := by
  cases i with
  | ldVxK x => exact absurd rfl (hi x)
  | ret => exact execRet_keeps_inputState s
  | call nnn => exact execCall_keeps_inputState nnn s
  | seImm | sneImm | seReg | sneReg => exact ⟨_, rfl, skipIf_inputState _ s⟩
  | skp | sknp =>
    refine ⟨_, rfl, ?_⟩
    split <;> rfl
  | drw x y n => exact ⟨_, rfl, orAddressingError_map_inputState s _ fun _ => rfl⟩
  | loadRegs x => exact ⟨_, rfl, orAddressingError_map_inputState s _ fun bs => writeRegs_inputState s 0 bs⟩
  | ldBVx | storeRegs => exact ⟨_, rfl, orAddressingError_inputState fun _ => writeBytes_inputState⟩
  | _ => exact ⟨_, rfl, rfl⟩

/-! ### Steps -/

theorem step_of_done {s t : State} (h : beginStep s = .done t) : step s = .next t := by
  simp [step, h]

theorem step_of_execute {s u : State} {i : Instr} (h : beginStep s = .execute i u) :
    step s = finishStep (exec i u) := by
  simp [step, h]

/-- A frozen core's step does nothing (R122). -/
theorem step_frozen {s : State} (hf : s.fault ≠ none) : step s = .next s := by
  obtain ⟨f, hf⟩ := Option.ne_none_iff_exists'.mp hf
  exact step_of_done (beginStep_frozen hf)

/-- A waiting core's step only ticks (R114). -/
theorem step_awaiting {s : State} (hf : s.fault = none) (hi : s.inputState = .awaitingKey) :
    step s = .next (completeStep s) :=
  step_of_done (beginStep_awaiting hf hi)

theorem finishStep_next_cases {t u : State} (h : finishStep (.next t) = .next u) : u = t ∨ u = completeStep t := by
  cases hf : t.fault with
  | some f => exact .inl (by simpa [finishStep_next_of_fault hf] using h.symm)
  | none => exact .inr (by simpa [finishStep_next_of_clear hf] using h.symm)

/-- A step keeps the input state, unless it fetches FX0A and takes the instruction's X as the key target (R35, R36). -/
theorem step_inputState_cases {s t : State} (h : step s = .next t) :
    t.inputState = s.inputState ∨ ∃ w x, Fetches s w ∧ decode w = .instr (.ldVxK x) ∧ t.keyTarget = x := by
  rcases beginStep_cases s with ⟨-, -, hb⟩ | ⟨-, -, hb⟩ | ⟨-, -, -, hb⟩ | ⟨-, -, -, -, hb⟩ | ⟨w, i, hw, hd, hb⟩
  case inr.inr.inr.inr =>
    rw [step_of_execute hb] at h
    by_cases hi : ∃ x, i = .ldVxK x
    · obtain ⟨x, rfl⟩ := hi
      rw [exec_ldVxK] at h
      exact .inr ⟨w, x, hw, hd, by rcases finishStep_next_cases h with rfl | rfl <;> rfl⟩
    · obtain ⟨u, hu, hkeep⟩ := exec_keeps_inputState (advancePc s) (not_exists.mp hi)
      rw [hu] at h
      exact .inl (by rcases finishStep_next_cases h with rfl | rfl <;> exact hkeep)
  all_goals
    rw [step_of_done hb] at h
    cases h
    exact .inl rfl

theorem completeStep_changesOnly (s : State) :
    ChangesOnly (fun p => p = .dt ∨ p = .st ∨ p = .rndIndex) s (completeStep s) := by
  intro p hp
  cases p <;> simp_all [Unchanged]

/-- A step of a waiting core ticks at most, and does the same whatever memory holds (R114, R122). -/
theorem step_awaiting_frame {s t : State} (hi : s.inputState = .awaitingKey) (h : step s = .next t) :
    ChangesOnly (fun p => p = .dt ∨ p = .st ∨ p = .rndIndex) s t ∧ ∀ m, step (s.setMem m) = .next (t.setMem m) := by
  by_cases hf : s.fault = none
  · rw [step_awaiting hf hi] at h
    cases h
    exact ⟨completeStep_changesOnly s, fun m => step_awaiting (s := s.setMem m) hf hi⟩
  · rw [step_frozen hf] at h
    cases h
    exact ⟨ChangesOnly.refl _ s, fun m => step_frozen (s := s.setMem m) hf⟩

/-! ### Host operations -/

/-- A key press keeps the input state, or finds a core that is not frozen and leaves it running (R116; D6). -/
theorem pressKey_inputState_cases (k : Key) (s : State) :
    (pressKey k s).inputState = s.inputState ∨ (s.fault = none ∧ (pressKey k s).inputState = .running) := by
  rcases pressKey_cases k s with ⟨-, hp⟩ | ⟨-, -, hp⟩ | ⟨hf, -, hp⟩
  · exact .inl (by rw [hp])
  · exact .inl (by rw [hp, State.setLastKey_inputState])
  · exact .inr ⟨hf, by rw [hp]; rfl⟩

/-- What a host operation can do to the input state: nothing, the wait of a fetched FX0A, or running after a key press
or a reset (R35, R116, R123). -/
theorem applyOp_inputState_cases {op : HostOp} {s t : State} (h : applyOp op s = .next t) :
    t.inputState = s.inputState ∨
    (op = .step ∧ ∃ w x, Fetches s w ∧ decode w = .instr (.ldVxK x) ∧ t.keyTarget = x) ∨
    (((∃ k, op = .pressKey k ∧ s.fault = none) ∨ op = .reset) ∧ t.inputState = .running) := by
  cases op with
  | step => exact (step_inputState_cases h).imp_right fun hk => .inl ⟨rfl, hk⟩
  | pressKey k =>
    cases h
    exact (pressKey_inputState_cases k s).imp_right fun ⟨hf, hr⟩ => .inr ⟨.inl ⟨k, rfl, hf⟩, hr⟩
  | loadProgram bytes =>
    cases h
    exact .inl (loadProgram_inputState bytes s)
  | reset =>
    cases h
    exact .inr (.inr ⟨.inr rfl, rfl⟩)
  | framebufferSnapshot | isAwaitingKey | faultStatus | soundActive =>
    cases h
    exact .inl rfl

/-- Settles O50: each direction reads off the cases of a host operation, and a waiting step has its frame. -/
theorem inputStateChangesOnlyByFx0aAndKey : Obligations.InputStateChangesOnlyByFx0aAndKey := by
  refine ⟨rfl, fun op s t h hs ht => ?_, fun op s t h hs ht => ?_, fun s t => step_awaiting_frame⟩
  · rcases applyOp_inputState_cases h with hkeep | hwait | ⟨-, hrun⟩
    · simp [hs, ht] at hkeep
    · exact hwait
    · simp [ht] at hrun
  · rcases applyOp_inputState_cases h with hkeep | ⟨-, w, x, ⟨-, hrunning, -⟩, -⟩ | ⟨hop, -⟩
    · simp [hs, ht] at hkeep
    · simp [hs] at hrunning
    · exact hop

end Sys2Proof.Machine

/-! PROOFS. The byte accesses: where they fault, what they read, and what a write leaves alone (R61). -/

namespace Sys2Proof.Machine

theorem memRead_of_gt (s : State) {a : Nat} (h : 0xFFF < a) : memRead s a = .error a := by
  rw [memRead_eq, if_pos h]

theorem memRead_of_le (s : State) {a : Nat} (h : a ≤ 0xFFF) : memRead s a = .ok (s.byteAt a) := by
  rw [memRead_eq, if_neg (Nat.not_lt.mpr h)]

theorem memWrite_of_gt (s : State) {a : Nat} (b : Byte) (h : 0xFFF < a) : memWrite s a b = .error a := by
  rw [memWrite_eq, if_pos h]

theorem memWrite_of_le (s : State) {a : Nat} (b : Byte) (h : a ≤ 0xFFF) :
    memWrite s a b = .ok (s.setMem (Memory.set s.params s.mem a b)) := by
  rw [memWrite_eq, if_neg (Nat.not_lt.mpr h)]

/-- Storing one byte changes that byte of memory and no other piece of state. -/
theorem setMem_set_changesOnly (s : State) (a : Nat) (b : Byte) :
    ChangesOnly (fun p => p = .mem a) s (s.setMem (Memory.set s.params s.mem a b)) := by
  have hother : ∀ x, x ≠ a → Memory.get s.params (Memory.set s.params s.mem a b) x = s.byteAt x := fun x hx => by
    rw [Memory.get_set, if_neg hx]
    rfl
  exact (setMem_changesOnly s _ (· = a) hother).mono fun _ ⟨_, hx, hp⟩ => hx ▸ hp

/-- A write inside the address space is read back, and changes the one byte alone. -/
theorem memWrite_read_back_frame (s : State) {a : Nat} (b : Byte) (h : a ≤ 0xFFF) :
    ∃ t, memWrite s a b = .ok t ∧ memRead t a = .ok b ∧ ChangesOnly (fun p => p = .mem a) s t := by
  refine ⟨_, memWrite_of_le s b h, ?_, setMem_set_changesOnly s a b⟩
  rw [memRead_of_le _ h, State.byteAt_setMem, Memory.get_set, if_pos rfl]

/-- Settles O42: the two accesses on either side of 0xFFF. -/
theorem byteAccessesReadAndWrite : Obligations.ByteAccessesReadAndWrite :=
  ⟨fun s _ => memRead_of_gt s, fun s _ => memRead_of_le s, fun s _ => memWrite_of_gt s,
    fun s _ => memWrite_read_back_frame s⟩

end Sys2Proof.Machine

/-! PROOFS. The step of a waiting core, and the tick it consists of (R114, R300). -/

namespace Sys2Proof.Machine

/-- Settles O44: a waiting core's step is the completion alone, which ticks both timers and has the tick's frame. -/
theorem awaitingStepOnlyTicks : Obligations.AwaitingStepOnlyTicks := by
  intro s hf hi
  exact ⟨completeStep s, step_awaiting hf hi, tickTimer_toNat s.dt, tickTimer_toNat s.st, completeStep_changesOnly s⟩

end Sys2Proof.Machine

/-! PROOFS. The frames of the shared updates, and the frame of every instruction: it writes its own targets and nothing
else, and one that raises writes PC and the latch at most (R23, R126, R140 to R265, R291). -/

namespace Sys2Proof.Machine

/-! ### Frames of the updates -/

/-- Two changes within the same pieces of state make one. -/
theorem ChangesOnly.trans {P : Part → Prop} {s t u : State} (hst : ChangesOnly P s t) (htu : ChangesOnly P t u) :
    ChangesOnly P s u := by
  intro p hp
  have h₁ := hst p hp
  have h₂ := htu p hp
  cases p <;> exact h₂.trans h₁

theorem setDt_changesOnly (s : State) (b : Byte) : ChangesOnly (fun p => p = .dt) s (s.setDt b) := by
  intro p hp
  cases p <;> simp_all [Unchanged]

theorem setSt_changesOnly (s : State) (b : Byte) : ChangesOnly (fun p => p = .st) s (s.setSt b) := by
  intro p hp
  cases p <;> simp_all [Unchanged]

theorem setFb_changesOnly (s : State) (fb : Framebuffer) :
    ChangesOnly (fun p => ∃ x y, p = .cell x y) s (s.setFb fb) := by
  intro p hp
  cases p <;> simp_all [Unchanged]

theorem setLastKey_changesOnly (s : State) (k : Option Key) :
    ChangesOnly (fun p => p = .lastKey) s (s.setLastKey k) := by
  intro p hp
  cases p <;> simp_all [Unchanged]

/-- Raising in a handler puts PC back and sets the latch: no write of the handler survives (R126, R292). -/
theorem raiseInHandler_changesOnly (k : FatalKind) (e : Word) (s : State) :
    ChangesOnly (fun p => p = .pc ∨ p = .fault) s (raiseInHandler k e s) := by
  intro p hp
  cases p <;> simp_all [Unchanged]

/-! ### Frames of the block transfers and the stack -/

/-- A block write that fits changes the bytes of its block alone (R66). -/
theorem orAddressingError_writeBytes_changesOnly (s : State) {a : Nat} {bs : List Byte} (h : a + bs.length ≤ 0x1000) :
    ChangesOnly (fun p => ∃ k, k < bs.length ∧ p = .mem (a + k)) s (orAddressingError s (writeBytes s a bs)) := by
  obtain ⟨m, hm, -, hget⟩ := writeBytes_ok s a bs h
  rw [hm, orAddressingError_ok]
  have houtside : ∀ x, ¬ (∃ k, k < bs.length ∧ x = a + k) → Memory.get s.params m x = s.byteAt x := by
    intro x hx
    rw [hget x]
    split
    · have hpast : bs.length ≤ x - a := by
        by_contra hlt
        exact hx ⟨x - a, by omega, by omega⟩
      rw [List.getElem?_eq_none hpast, Option.getD_none]
    · rfl
  refine (setMem_changesOnly s m _ houtside).mono ?_
  rintro p ⟨_, ⟨k, hk, rfl⟩, hp⟩
  exact ⟨k, hk, hp⟩

/-- A block write that does not fit raises (R64). -/
theorem orAddressingError_writeBytes_raises (s : State) {a : Nat} {bs : List Byte} (hn : bs ≠ [])
    (h : ¬ a + bs.length ≤ 0x1000) :
    orAddressingError s (writeBytes s a bs) =
      raiseInHandler .addressingError (BitVec.ofNat 16 (max a 0x1000)) s := by
  rw [writeBytes_error s a bs hn (by omega), orAddressingError_error]

/-- A block read that is empty or fits answers as many bytes as it was asked for (R66). -/
theorem readBytes_length (s : State) {a n : Nat} (h : n = 0 ∨ a + n ≤ 0x1000) :
    ∃ bs, readBytes s a n = .ok bs ∧ bs.length = n := by
  rcases h with rfl | h
  · exact ⟨[], rfl, rfl⟩
  · exact ⟨_, readBytes_ok s a n h, by simp⟩

/-- A handler that needs a block raises when the block is not empty and does not fit (R64). -/
theorem orAddressingError_map_readBytes_raises (s : State) {a n : Nat} (f : List Byte → State)
    (h : ¬ (n = 0 ∨ a + n ≤ 0x1000)) :
    orAddressingError s ((readBytes s a n).map f) =
      raiseInHandler .addressingError (BitVec.ofNat 16 (max a 0x1000)) s := by
  rw [readBytes_error s a n (by omega) (by omega)]
  rfl

/-- Writing registers from V0 on changes as many registers as there are bytes (R215). -/
theorem writeRegs_changesOnly (s : State) (bs : List Byte) :
    ChangesOnly (fun p => ∃ r : Reg, r.val < bs.length ∧ p = .v r) s (writeRegs s 0 bs) := by
  intro p hp
  cases p with
  | v r =>
    have hpast : bs.length ≤ r.val := Nat.le_of_not_lt fun hr => hp ⟨r, hr, rfl⟩
    simp [Unchanged, writeRegs_getV, List.getElem?_eq_none hpast]
  | _ =>
    rw [writeRegs_eq]
    rfl

/-- A draw changes VF and cells alone (R242). -/
theorem drawSprite_changesOnly (s : State) (vx vy : Byte) (rows : List Byte) :
    ChangesOnly (fun p => p = .v vf ∨ ∃ x y, p = .cell x y) s (drawSprite s vx vy rows) :=
  ((setFb_changesOnly s _).mono fun _ => .inr).trans ((setV_changesOnly _ vf _).mono fun _ => .inl)

/-- A push and the jump that follows change PC, SP and the entry that SP named (R143). -/
theorem pushStack_setPc_changesOnly {s t : State} {k : Fin 16} {w : Word} (target : Word) (hk : s.sp.val = k.val)
    (h : pushStack s w = some t) :
    ChangesOnly (fun p => p = .pc ∨ p = .sp ∨ p = .stack k) s (t.setPc target) := by
  rw [pushStack_of_lt s w k hk] at h
  cases h
  intro p hp
  cases p with
  | stack j =>
    have hne : k.val ≠ j.val := fun e => hp (.inr (.inr (congrArg Part.stack (Fin.ext e.symm))))
    exact Vector.getElem_set_ne k.isLt j.isLt hne
  | pc => exact absurd (.inl rfl) hp
  | sp => exact absurd (.inr (.inl rfl)) hp
  | _ => rfl

/-- A pop and the jump to what it popped change PC and SP; the entry stays (R141; D31). -/
theorem popStack_setPc_changesOnly {s t : State} {k : Fin 16} {w : Word} (hk : s.sp.val = k.val + 1)
    (h : popStack s = some (w, t)) : ChangesOnly (fun p => p = .pc ∨ p = .sp) s (t.setPc w) := by
  rw [popStack_of_pos s k hk] at h
  cases h
  intro p hp
  cases p with
  | pc => exact absurd (.inl rfl) hp
  | sp => exact absurd (.inr rfl) hp
  | _ => rfl

/-! ### When an instruction completes -/

theorem lt_blockLength_iff {k : Nat} {x : Reg} : k < blockLength x ↔ k ≤ x.val := Nat.lt_succ_iff

theorem fatalOf_ret_eq_none_iff (s : State) : fatalOf .ret s = none ↔ s.sp.val ≠ 0 := by
  simp [fatalOf]

theorem fatalOf_call_eq_none_iff (nnn : Imm12) (s : State) : fatalOf (.call nnn) s = none ↔ s.sp.val ≠ 16 := by
  simp [fatalOf]

theorem fatalOf_drw_eq_none_iff (x y : Reg) (n : Nibble) (s : State) :
    fatalOf (.drw x y n) s = none ↔ n.toNat = 0 ∨ baseAddress s + n.toNat ≤ 0x1000 := by
  simp only [fatalOf, baseAddress, ite_eq_right_iff, reduceCtorEq, imp_false]
  omega

theorem fatalOf_ldBVx_eq_none_iff (x : Reg) (s : State) :
    fatalOf (.ldBVx x) s = none ↔ baseAddress s + 3 ≤ 0x1000 := by
  simp only [fatalOf, baseAddress, ite_eq_right_iff, reduceCtorEq, imp_false]
  omega

theorem fatalOf_storeRegs_eq_none_iff (x : Reg) (s : State) :
    fatalOf (.storeRegs x) s = none ↔ baseAddress s + blockLength x ≤ 0x1000 := by
  simp only [fatalOf, baseAddress, blockLength, ite_eq_right_iff, reduceCtorEq, imp_false]
  omega

theorem fatalOf_loadRegs_eq_none_iff (x : Reg) (s : State) :
    fatalOf (.loadRegs x) s = none ↔ baseAddress s + blockLength x ≤ 0x1000 :=
  fatalOf_storeRegs_eq_none_iff x s

/-! ### Frames of the instructions -/

/-- The frame of one run of an instruction from `s` to `t`: a run that completes stays within `mayWrite`, and one that
raises within PC and the latch (R23, R126). -/
def WritesOnlyTargets (i : Instr) (s t : State) : Prop :=
  (fatalOf i s = none → ChangesOnly (mayWrite i s) s t) ∧
  (fatalOf i s ≠ none → ChangesOnly (fun p => p = .pc ∨ p = .fault) s t)

theorem WritesOnlyTargets.of_completes {i : Instr} {s t : State} (hf : fatalOf i s = none)
    (h : ChangesOnly (mayWrite i s) s t) : WritesOnlyTargets i s t :=
  ⟨fun _ => h, fun hne => absurd hf hne⟩

theorem WritesOnlyTargets.of_raises {i : Instr} {s : State} (hf : fatalOf i s ≠ none) (k : FatalKind) (e : Word) :
    WritesOnlyTargets i s (raiseInHandler k e s) :=
  ⟨fun hn => absurd hn hf, fun _ => raiseInHandler_changesOnly k e s⟩

/-- RET pops, or raises on an empty stack (R141). -/
theorem execRet_writesOnlyTargets (s : State) : ∃ t, execRet s = .next t ∧ WritesOnlyTargets .ret s t := by
  unfold execRet
  by_cases h : s.sp.val = 0
  · rw [popStack_empty s h]
    exact ⟨_, rfl, .of_raises (mt (fatalOf_ret_eq_none_iff s).mp (not_not.mpr h)) _ _⟩
  · obtain ⟨k, hk⟩ : ∃ k : Fin 16, s.sp.val = k.val + 1 := ⟨⟨s.sp.val - 1, by omega⟩, (Nat.succ_pred h).symm⟩
    have hp := popStack_of_pos s k hk
    rw [hp]
    exact ⟨_, rfl, .of_completes ((fatalOf_ret_eq_none_iff s).mpr h) (popStack_setPc_changesOnly hk hp)⟩

/-- CALL pushes, or raises on a full stack (R143). -/
theorem execCall_writesOnlyTargets (nnn : Imm12) (s : State) :
    ∃ t, execCall nnn s = .next t ∧ WritesOnlyTargets (.call nnn) s t := by
  unfold execCall
  by_cases h : s.sp.val = 16
  · rw [pushStack_full s s.pc h]
    exact ⟨_, rfl, .of_raises (mt (fatalOf_call_eq_none_iff nnn s).mp (not_not.mpr h)) _ _⟩
  · obtain ⟨k, hk⟩ : ∃ k : Fin 16, s.sp.val = k.val := ⟨⟨s.sp.val, by omega⟩, rfl⟩
    have hp := pushStack_of_lt s s.pc k hk
    rw [hp]
    refine ⟨_, rfl, .of_completes ((fatalOf_call_eq_none_iff nnn s).mpr h) ?_⟩
    exact (pushStack_setPc_changesOnly (zextImm nnn) hk hp).mono fun _ =>
      Or.imp_right (Or.imp_right fun hs => ⟨k, hk.symm, hs⟩)

/-- A match skips, a mismatch consumes the key (R260). -/
theorem execSkp_writesOnlyTargets (x : Reg) (s : State) :
    ∃ t, execSkp x s = .next t ∧ WritesOnlyTargets (.skp x) s t := by
  refine ⟨_, rfl, .of_completes rfl ?_⟩
  split
  · exact (setPc_changesOnly s _).mono fun _ => .inl
  · exact (setLastKey_changesOnly s none).mono fun _ => .inr

/-- A match does nothing, a mismatch skips and consumes the key (R261). -/
theorem execSknp_writesOnlyTargets (x : Reg) (s : State) :
    ∃ t, execSknp x s = .next t ∧ WritesOnlyTargets (.sknp x) s t := by
  refine ⟨_, rfl, .of_completes rfl ?_⟩
  split
  · exact ChangesOnly.refl _ s
  · exact ((setPc_changesOnly s _).mono fun _ => .inl).trans ((setLastKey_changesOnly _ none).mono fun _ => .inr)

/-- FX0A changes the input state and the key target, and not the tracked key (R265; D32). -/
theorem execLdVxK_writesOnlyTargets (x : Reg) (s : State) :
    ∃ t, execLdVxK x s = .next t ∧ WritesOnlyTargets (.ldVxK x) s t := by
  refine ⟨_, rfl, .of_completes rfl fun p hp => ?_⟩
  cases p with
  | inputState => exact absurd (.inl rfl) hp
  | keyTarget => exact absurd (.inr rfl) hp
  | _ => rfl

/-- An instruction that stores a block at I has its frame if the table faults it when the block does not fit, and its
targets hold the bytes of the block. -/
theorem WritesOnlyTargets.of_blockStore {i : Instr} {s : State} {bs : List Byte} (hn : bs ≠ [])
    (hfits : fatalOf i s = none ↔ baseAddress s + bs.length ≤ 0x1000)
    (hmay : ∀ k, k < bs.length → mayWrite i s (.mem (baseAddress s + k))) :
    WritesOnlyTargets i s (orAddressingError s (writeBytes s (baseAddress s) bs)) := by
  by_cases h : baseAddress s + bs.length ≤ 0x1000
  · refine .of_completes (hfits.mpr h) ((orAddressingError_writeBytes_changesOnly s h).mono ?_)
    rintro _ ⟨k, hk, rfl⟩
    exact hmay k hk
  · rw [orAddressingError_writeBytes_raises s hn h]
    exact .of_raises (mt hfits.mp h) _ _

/-- An instruction that needs a block at I has its frame if the table faults it when the block does not fit, and what it
does with the block's bytes has the frame. -/
theorem WritesOnlyTargets.of_blockLoad {i : Instr} {s : State} {n : Nat} {f : List Byte → State}
    (hfits : fatalOf i s = none ↔ n = 0 ∨ baseAddress s + n ≤ 0x1000)
    (hframe : ∀ bs, bs.length = n → ChangesOnly (mayWrite i s) s (f bs)) :
    WritesOnlyTargets i s (orAddressingError s ((readBytes s (baseAddress s) n).map f)) := by
  by_cases h : n = 0 ∨ baseAddress s + n ≤ 0x1000
  · obtain ⟨bs, hbs, hlen⟩ := readBytes_length s h
    rw [hbs]
    exact .of_completes (hfits.mpr h) (hframe bs hlen)
  · rw [orAddressingError_map_readBytes_raises s f h]
    exact .of_raises (mt hfits.mp h) _ _

theorem execDrw_writesOnlyTargets (x y : Reg) (n : Nibble) (s : State) :
    ∃ t, execDrw x y n s = .next t ∧ WritesOnlyTargets (.drw x y n) s t :=
  ⟨_, rfl, .of_blockLoad (fatalOf_drw_eq_none_iff x y n s) fun rows _ => drawSprite_changesOnly s _ _ rows⟩

theorem execLdBVx_writesOnlyTargets (x : Reg) (s : State) :
    ∃ t, execLdBVx x s = .next t ∧ WritesOnlyTargets (.ldBVx x) s t :=
  ⟨_, rfl, .of_blockStore (List.cons_ne_nil _ _) (fatalOf_ldBVx_eq_none_iff x s) fun k hk => ⟨k, hk, rfl⟩⟩

/-- FX55 stores V0 to Vx, one byte each (R214). -/
theorem execStoreRegs_writesOnlyTargets (x : Reg) (s : State) :
    ∃ t, execStoreRegs x s = .next t ∧ WritesOnlyTargets (.storeRegs x) s t := by
  have hlen : (firstRegs s (blockLength x)).length = blockLength x := by
    rw [firstRegs_length]
    exact Nat.min_eq_left x.isLt
  refine ⟨_, rfl, .of_blockStore ?_ ?_ fun k hk => ?_⟩
  · exact List.ne_nil_of_length_pos (hlen.symm ▸ Nat.succ_pos x.val)
  · rw [hlen]
    exact fatalOf_storeRegs_eq_none_iff x s
  · rw [hlen, lt_blockLength_iff] at hk
    exact ⟨⟨k, Nat.lt_of_le_of_lt hk x.isLt⟩, hk, rfl⟩

/-- FX65 loads V0 to Vx, one byte each (R215). -/
theorem execLoadRegs_writesOnlyTargets (x : Reg) (s : State) :
    ∃ t, execLoadRegs x s = .next t ∧ WritesOnlyTargets (.loadRegs x) s t := by
  refine ⟨_, rfl, .of_blockLoad ?_ fun bs hlen => (writeRegs_changesOnly s bs).mono ?_⟩
  · exact (fatalOf_loadRegs_eq_none_iff x s).trans (or_iff_right (Nat.succ_ne_zero x.val)).symm
  · rintro p ⟨r, hr, hp⟩
    rw [hlen, lt_blockLength_iff] at hr
    exact ⟨r, hr, hp⟩

/-- Every instruction answers a next state, and that state has the instruction's frame. -/
theorem exec_writesOnlyTargets (i : Instr) (s : State) : ∃ t, exec i s = .next t ∧ WritesOnlyTargets i s t := by
  cases i with
  | sys nnn => exact ⟨_, rfl, .of_completes rfl (ChangesOnly.refl _ s)⟩
  | cls => exact ⟨_, rfl, .of_completes rfl (setFb_changesOnly s clearFb)⟩
  | jp | jpV0 => exact ⟨_, rfl, .of_completes rfl (setPc_changesOnly s _)⟩
  | seImm | sneImm | seReg | sneReg => exact ⟨_, rfl, .of_completes rfl (skipIf_changesOnly s _)⟩
  | ldImm | addImm | ldReg | orReg | andReg | xorReg | rnd | ldVxDt =>
    exact ⟨_, rfl, .of_completes rfl (setV_changesOnly s _ _)⟩
  | addReg | subReg | shrReg | subnReg | shlReg =>
    exact ⟨_, rfl, .of_completes rfl (setVWithFlag_changesOnly s _ _ _)⟩
  | ldI | addIVx | ldFVx => exact ⟨_, rfl, .of_completes rfl (setI_changesOnly s _)⟩
  | ldDtVx x => exact ⟨_, rfl, .of_completes rfl (setDt_changesOnly s _)⟩
  | ldStVx x => exact ⟨_, rfl, .of_completes rfl (setSt_changesOnly s _)⟩
  | ret => exact execRet_writesOnlyTargets s
  | call nnn => exact execCall_writesOnlyTargets nnn s
  | skp x => exact execSkp_writesOnlyTargets x s
  | sknp x => exact execSknp_writesOnlyTargets x s
  | ldVxK x => exact execLdVxK_writesOnlyTargets x s
  | drw x y n => exact execDrw_writesOnlyTargets x y n s
  | ldBVx x => exact execLdBVx_writesOnlyTargets x s
  | storeRegs x => exact execStoreRegs_writesOnlyTargets x s
  | loadRegs x => exact execLoadRegs_writesOnlyTargets x s

/-- Settles O47: the one state that an instruction answers has the instruction's frame. -/
theorem instructionsWriteOnlyTheirTargets : Obligations.InstructionsWriteOnlyTheirTargets := by
  intro i s t h
  obtain ⟨u, hu, hframe⟩ := exec_writesOnlyTargets i s
  cases hu.symm.trans h
  exact hframe

end Sys2Proof.Machine

/-! PROOFS. The jump and the skip on an immediate: their words, their effect, and the step that runs the skip (R142,
R144). -/

namespace Sys2Proof.Machine

theorem zextImm_toNat (nnn : Imm12) : (zextImm nnn).toNat = nnn.toNat := by
  have := nnn.isLt
  simp only [zextImm, BitVec.toNat_setWidth]
  omega

/-- A word of family 1 is a jump (R91). -/
theorem decode_of_family1 {w : Word} (h : wordF w = 0x1) : decode w = .instr (.jp (wordNNN w)) := by
  have hf := family_eq_wordF w
  rw [h] at hf
  simp [decode, hf, fieldNNN_eq_wordNNN]

/-- A word of family 3 is a skip on an equal immediate (R91). -/
theorem decode_of_family3 {w : Word} (h : wordF w = 0x3) : decode w = .instr (.seImm (wordX w) (wordNN w)) := by
  have hf := family_eq_wordF w
  rw [h] at hf
  simp [decode, hf, fieldX_eq_wordX, fieldNN_eq_wordNN]

/-- The step of a fetched instruction that completes is the instruction past the fetch's advance, and then the tick
(R110 to R112). -/
theorem step_of_completes {s t : State} {w : Word} {i : Instr} (hw : Fetches s w) (hd : decode w = .instr i)
    (he : exec i (advancePc s) = .next t) (ht : t.fault = none) : step s = .next (completeStep t) := by
  rw [step_of_execute (beginStep_instr hw hd), he, finishStep_next_of_clear ht]

@[simp] theorem skipIf_fault (c : Bool) (s : State) : (skipIf c s).fault = s.fault := by
  cases c <;> rfl

/-- The step of a fetched skip leaves PC 4 past PC0 if the skip is taken, else 2 past it (R144). -/
theorem step_of_skip {s : State} {w : Word} {i : Instr} {c : Bool} (hw : Fetches s w) (hd : decode w = .instr i)
    (he : exec i (advancePc s) = .next (skipIf c (advancePc s))) :
    ∃ t, step s = .next t ∧ t.pc = s.pc + if c then 4 else 2 := by
  refine ⟨_, step_of_completes hw hd he ((skipIf_fault c _).trans hw.1), ?_⟩
  rw [completeStep_pc, skipIf_pc]
  cases c
  · rfl
  · exact BitVec.add_assoc s.pc 2 2

/-- Settles O8: the target is NNN zero-extended, and setting PC has the frame of PC. -/
theorem jpSetsPc : Obligations.JpSetsPc :=
  ⟨fun _ => decode_of_family1, fun nnn s => ⟨_, rfl, zextImm_toNat nnn, setPc_changesOnly s _⟩⟩

/-- Settles O10: the handler is a skip on `Vx = NN`, and so is the step that fetches it. -/
theorem seImmSkipsOnEqual : Obligations.SeImmSkipsOnEqual := by
  refine ⟨fun _ => decode_of_family3, fun x nn s => ⟨_, rfl, ?_, skipIf_changesOnly s _⟩, fun s w hw hF => ?_⟩
  · simp only [skipIf_pc, beq_iff_eq, BitVec.toNat_inj]
  · obtain ⟨t, ht, hpc⟩ := step_of_skip hw (decode_of_family3 hF) rfl
    refine ⟨t, ht, ?_⟩
    simpa only [advancePc, State.getV_setPc, beq_iff_eq, BitVec.toNat_inj] using hpc

end Sys2Proof.Machine

/-! PROOFS. What one step can do, and the tick of the two timers at its end (R110, R122, R126, R291, R300). -/

namespace Sys2Proof.Machine

/-! ### An instruction that the table of R291 faults raises -/

theorem execRet_raises {s : State} (h : s.sp.val = 0) :
    execRet s = .next (raiseInHandler .stackUnderflow 0 s) := by
  simp [execRet, popStack_empty s h]

theorem execCall_raises (nnn : Imm12) {s : State} (h : s.sp.val = 16) :
    execCall nnn s = .next (raiseInHandler .stackOverflow 16 s) := by
  simp [execCall, pushStack_full s s.pc h]

theorem firstRegs_blockLength (s : State) (x : Reg) : (firstRegs s (blockLength x)).length = blockLength x :=
  (firstRegs_length s _).trans (Nat.min_eq_left x.isLt)

theorem firstRegs_blockLength_ne_nil (s : State) (x : Reg) : firstRegs s (blockLength x) ≠ [] :=
  List.ne_nil_of_length_eq_add_one (firstRegs_blockLength s x)

/-- An instruction with a row in the table answers the state it ran in with the latch set: nothing it wrote survives
(R126, R291). -/
theorem exec_raises {i : Instr} {s : State} (h : fatalOf i s ≠ none) :
    ∃ k e, exec i s = .next (raiseInHandler k e s) := by
  cases i with
  | ret => exact ⟨_, _, execRet_raises (not_not.mp (mt (fatalOf_ret_eq_none_iff s).mpr h))⟩
  | call nnn => exact ⟨_, _, execCall_raises nnn (not_not.mp (mt (fatalOf_call_eq_none_iff nnn s).mpr h))⟩
  | drw x y n =>
    have hout := mt (fatalOf_drw_eq_none_iff x y n s).mpr h
    exact ⟨_, _, congrArg _ (orAddressingError_map_readBytes_raises s _ hout)⟩
  | ldBVx x =>
    have hout := mt (fatalOf_ldBVx_eq_none_iff x s).mpr h
    exact ⟨_, _, congrArg _ (orAddressingError_writeBytes_raises s (List.cons_ne_nil _ _) hout)⟩
  | storeRegs x =>
    have hout := mt (fatalOf_storeRegs_eq_none_iff x s).mpr h
    rw [← firstRegs_blockLength s x] at hout
    exact ⟨_, _, congrArg _ (orAddressingError_writeBytes_raises s (firstRegs_blockLength_ne_nil s x) hout)⟩
  | loadRegs x =>
    have hout := mt (fatalOf_loadRegs_eq_none_iff x s).mpr h
    have hnone : ¬ (blockLength x = 0 ∨ baseAddress s + blockLength x ≤ 0x1000) :=
      not_or.mpr ⟨Nat.succ_ne_zero x.val, hout⟩
    exact ⟨_, _, congrArg _ (orAddressingError_map_readBytes_raises s _ hnone)⟩
  | _ => exact absurd rfl h

/-- Raising past the fetch's advance puts PC back to PC0 (R13, R292). -/
theorem raiseInHandler_advancePc (k : FatalKind) (e : Word) (s : State) :
    raiseInHandler k e (advancePc s) = raiseFatal s.pc k e s := by
  simp [raiseInHandler, raiseFatal, advancePc_eq]

/-! ### The targets that concern a step -/

/-- DT is a target of FX15 alone (R263). -/
theorem mayWrite_dt_iff {i : Instr} {s : State} : mayWrite i s .dt ↔ ∃ x, i = .ldDtVx x := by
  cases i <;> simp [mayWrite]

/-- ST is a target of FX18 alone (R264). -/
theorem mayWrite_st_iff {i : Instr} {s : State} : mayWrite i s .st ↔ ∃ x, i = .ldStVx x := by
  cases i <;> simp [mayWrite]

/-- The latch is no instruction's target (R23). -/
theorem not_mayWrite_fault (i : Instr) (s : State) : ¬ mayWrite i s .fault := by
  cases i <;> simp [mayWrite]

/-- An instruction without a row in the table keeps the latch. -/
theorem WritesOnlyTargets.fault_eq {i : Instr} {s t : State} (h : WritesOnlyTargets i s t) (hf : fatalOf i s = none) :
    t.fault = s.fault :=
  h.1 hf .fault (not_mayWrite_fault i s)

/-- What a step may write before its tick: PC, and the targets of the instruction that it fetches, if it fetches one
(R111, R112). -/
def stepMayWrite (s : State) (p : Part) : Prop :=
  p = .pc ∨ ∃ w i, Fetches s w ∧ decode w = .instr i ∧ mayWrite i (advancePc s) p

/-- A piece of state that only the instructions `c x` write stays as it is in a step that fetches none of them. -/
theorem not_stepMayWrite {s : State} {p : Part} {c : Reg → Instr} (hpc : p ≠ .pc)
    (hwriter : ∀ i, mayWrite i (advancePc s) p → ∃ x, i = c x)
    (hno : ∀ w x, Fetches s w → decode w ≠ .instr (c x)) : ¬ stepMayWrite s p := by
  rintro (hp | ⟨w, i, hw, hd, hi⟩)
  · exact hpc hp
  · obtain ⟨x, rfl⟩ := hwriter i hi
    exact hno w x hw hd

/-! ### What a step can do -/

/-- The part of a step that runs a fetched instruction: it raises and is rolled back, or it writes its targets and ticks
(R110, R126). -/
theorem step_instr_cases {s t : State} {w : Word} {i : Instr} (hw : Fetches s w) (hd : decode w = .instr i)
    (h : step s = .next t) :
    (∃ k e, t = raiseFatal s.pc k e s) ∨
    (∃ u, t = completeStep u ∧ u.fault = none ∧ ChangesOnly (stepMayWrite s) s u) := by
  by_cases hfatal : fatalOf i (advancePc s) = none
  · obtain ⟨u, hu, hframe⟩ := exec_writesOnlyTargets i (advancePc s)
    have hclear : u.fault = none := (hframe.fault_eq hfatal).trans hw.1
    rw [step_of_completes hw hd hu hclear] at h
    cases h
    have hadvance : ChangesOnly (stepMayWrite s) s (advancePc s) := (setPc_changesOnly s _).mono fun _ => .inl
    exact .inr ⟨u, rfl, hclear, hadvance.trans ((hframe.1 hfatal).mono fun _ hp => .inr ⟨w, i, hw, hd, hp⟩)⟩
  · obtain ⟨k, e, hraise⟩ := exec_raises hfatal
    rw [step_of_execute (beginStep_instr hw hd), hraise, raiseInHandler_advancePc,
      finishStep_next_of_fault (raiseFatal_fault s.pc k e s)] at h
    cases h
    exact .inl ⟨k, e, rfl⟩

/-- All that a step can do: nothing in a frozen core; set the latch and nothing else; or write within `stepMayWrite` and
then complete (R110, R122, R126). -/
theorem step_cases {s t : State} (h : step s = .next t) :
    (s.fault ≠ none ∧ t = s) ∨
    (∃ k e, t = raiseFatal s.pc k e s) ∨
    (∃ u, t = completeStep u ∧ u.fault = none ∧ ChangesOnly (stepMayWrite s) s u) := by
  rcases beginStep_cases s with ⟨f, hf, hb⟩ | ⟨hf, -, hb⟩ | ⟨-, -, -, hb⟩ | ⟨w, u, hw, -, hb⟩ | ⟨w, i, hw, hd, -⟩
  case inr.inr.inr.inr => exact .inr (step_instr_cases hw hd h)
  all_goals
    rw [step_of_done hb] at h
    cases h
  · exact .inl ⟨Option.ne_none_iff_exists'.mpr ⟨f, hf⟩, rfl⟩
  · exact .inr (.inr ⟨s, rfl, hf, ChangesOnly.refl _ s⟩)
  · exact .inr (.inl ⟨_, _, rfl⟩)
  · exact .inr (.inr ⟨advancePc s, rfl, hw.1, (setPc_changesOnly s _).mono fun _ => .inl⟩)

/-- A step that leaves the latch clear completes. -/
theorem step_completes_of_clear {s t : State} (h : step s = .next t) (ht : t.fault = none) :
    ∃ u, t = completeStep u ∧ ChangesOnly (stepMayWrite s) s u := by
  rcases step_cases h with ⟨hf, rfl⟩ | ⟨k, e, rfl⟩ | ⟨u, hu, -, hframe⟩
  · exact absurd ht hf
  · cases ht
  · exact ⟨u, hu, hframe⟩

/-! ### The timers -/

/-- A step that leaves the latch clear and does not run FX15 ticks DT (R300). -/
theorem step_ticks_dt {s t : State} (h : step s = .next t) (ht : t.fault = none)
    (hno : ∀ w x, Fetches s w → decode w ≠ .instr (.ldDtVx x)) : t.dt.toNat = s.dt.toNat - 1 := by
  obtain ⟨u, rfl, hframe⟩ := step_completes_of_clear h ht
  have hkeep : u.dt = s.dt := hframe .dt (not_stepMayWrite (by decide) (fun _ => mayWrite_dt_iff.mp) hno)
  rw [completeStep_dt, tickTimer_toNat, hkeep]

/-- A step that leaves the latch clear and does not run FX18 ticks ST (R300). -/
theorem step_ticks_st {s t : State} (h : step s = .next t) (ht : t.fault = none)
    (hno : ∀ w x, Fetches s w → decode w ≠ .instr (.ldStVx x)) : t.st.toNat = s.st.toNat - 1 := by
  obtain ⟨u, rfl, hframe⟩ := step_completes_of_clear h ht
  have hkeep : u.st = s.st := hframe .st (not_stepMayWrite (by decide) (fun _ => mayWrite_st_iff.mp) hno)
  rw [completeStep_st, tickTimer_toNat, hkeep]

/-- The step of a fetched FX15 sets DT and ticks it at once (R263, R300). -/
theorem step_of_ldDtVx {s : State} {w : Word} {x : Reg} (hw : Fetches s w) (hd : decode w = .instr (.ldDtVx x)) :
    step s = .next (completeStep ((advancePc s).setDt (s.getV x))) :=
  step_of_completes hw hd rfl hw.1

/-- The step of a fetched FX18 sets ST and ticks it at once (R264, R300). -/
theorem step_of_ldStVx {s : State} {w : Word} {x : Reg} (hw : Fetches s w) (hd : decode w = .instr (.ldStVx x)) :
    step s = .next (completeStep ((advancePc s).setSt (s.getV x))) :=
  step_of_completes hw hd rfl hw.1

/-- A step that leaves the latch set, be it frozen or faulting, does not tick (R122, R300). -/
theorem step_keeps_timers_of_fault {s t : State} (h : step s = .next t) (ht : t.fault ≠ none) :
    t.dt = s.dt ∧ t.st = s.st := by
  rcases step_cases h with ⟨-, rfl⟩ | ⟨k, e, rfl⟩ | ⟨u, rfl, hclear, -⟩
  · exact ⟨rfl, rfl⟩
  · exact ⟨rfl, rfl⟩
  · exact absurd hclear ht

/-- Settles O49: a completing step ticks what its instruction left in the timers, and no other step touches them. -/
theorem timersTickOncePerStep : Obligations.TimersTickOncePerStep := by
  intro s t h
  refine ⟨step_ticks_dt h, step_ticks_st h, fun w x hw hd => ?_, fun w x hw hd => ?_, step_keeps_timers_of_fault h⟩
  · cases (step_of_ldDtVx hw hd).symm.trans h
    exact tickTimer_toNat (s.getV x)
  · cases (step_of_ldStVx hw hd).symm.trans h
    exact tickTimer_toNat (s.getV x)

end Sys2Proof.Machine

/-! PROOFS. The decoder and the encoder: each undoes the other, a decoded word matches its row of the opcode map, and
the unrecognized words are those of R90 (R81 to R91). -/

namespace Sys2Proof.Machine

/-! ### Decoding an encoded instruction -/

/-- The bits of SYS NNN are those of CLS or RET only for the two values of NNN that R85 gives away. -/
theorem formNNN_zero_ne {nnn v : Imm12} (h : nnn ≠ v) : formNNN 0x0 nnn ≠ formNNN 0x0 v := fun e =>
  h (by rw [← fieldNNN_formNNN 0x0 nnn, e, fieldNNN_formNNN])

theorem decode_formNNN_zero {nnn : Imm12} (hcls : nnn ≠ 0x0E0) (hret : nnn ≠ 0x0EE) :
    decode (formNNN 0x0 nnn) = .instr (.sys nnn) := by
  have hne_cls : formNNN 0x0 nnn ≠ 0x00E0#16 := formNNN_zero_ne hcls
  have hne_ret : formNNN 0x0 nnn ≠ 0x00EE#16 := formNNN_zero_ne hret
  have hdec : decode (formNNN 0x0 nnn) = decode0 (formNNN 0x0 nnn) := by simp [decode]
  rw [hdec, decode0, if_neg hne_cls, if_neg hne_ret, fieldNNN_formNNN]

/-- The word of a well-formed instruction decodes to that instruction (R84 to R91). -/
theorem decode_encode {i : Instr} (h : WellFormed i = true) : decode (encode i) = .instr i := by
  cases i with
  | sys nnn =>
    obtain ⟨hcls, hret⟩ : nnn ≠ 0x0E0 ∧ nnn ≠ 0x0EE := by simpa [WellFormed] using h
    exact decode_formNNN_zero hcls hret
  | cls | ret => rfl
  | ldReg | orReg | andReg | xorReg | addReg | subReg | shrReg | subnReg | shlReg => simp [encode, decode, decode8]
  | skp | sknp => simp [encode, decode, decodeE]
  | ldVxDt | ldVxK | ldDtVx | ldStVx | addIVx | ldFVx | ldBVx | storeRegs | loadRegs => simp [encode, decode, decodeF]
  | _ => simp [encode, decode]

/-- Settles O1: each instruction's word has the family and the selector of the instruction's arm, and its fields. -/
theorem decodeUndoesEncode : Obligations.DecodeUndoesEncode := fun _ => decode_encode

/-! ### Encoding a decoded word -/

/-- A word of shape `F X NN` whose low byte is `nn`. -/
theorem formXNN_of_fieldNN {w : Word} {f : Nibble} {nn : Byte} (hf : family w = f.toNat)
    (hnn : (fieldNN w).toNat = nn.toNat) : formXNN f (fieldX w) nn = w :=
  BitVec.eq_of_toNat_eq hnn ▸ eq_formXNN hf

/-- A word of shape `F X Y N` whose low nibble is `n`. -/
theorem formXYN_of_fieldN {w : Word} {f n : Nibble} (hf : family w = f.toNat) (hn : (fieldN w).toNat = n.toNat) :
    formXYN f (fieldX w) (fieldY w) n = w :=
  BitVec.eq_of_toNat_eq hn ▸ eq_formXYN hf

/-- A word of family 0 that is neither CLS nor RET is a well-formed SYS (R85). -/
theorem encode_of_decode0 {w : Word} {i : Instr} (hf : family w = 0) (h : decode0 w = .instr i) :
    WellFormed i = true ∧ encode i = w := by
  have hw : formNNN 0x0 (fieldNNN w) = w := eq_formNNN (f := 0x0) hf
  unfold decode0 at h
  split_ifs at h with hcls hret <;> cases h
  · exact ⟨rfl, hcls.symm⟩
  · exact ⟨rfl, hret.symm⟩
  · have hne_cls : fieldNNN w ≠ 0x0E0 := fun e => hcls (by rw [← hw, e]; rfl)
    have hne_ret : fieldNNN w ≠ 0x0EE := fun e => hret (by rw [← hw, e]; rfl)
    exact ⟨by simpa [WellFormed] using ⟨hne_cls, hne_ret⟩, hw⟩

/-- Each arm of family 8 answers the instruction whose low nibble is the one it matched (R87). -/
theorem encode_of_decode8 {w : Word} {i : Instr} (hf : family w = 8) (h : decode8 w = .instr i) :
    WellFormed i = true ∧ encode i = w := by
  unfold decode8 at h
  split at h <;> cases h <;> exact ⟨rfl, formXYN_of_fieldN hf ‹_›⟩

/-- Each arm of family E answers the instruction whose low byte is the one it matched (R88). -/
theorem encode_of_decodeE {w : Word} {i : Instr} (hf : family w = 0xE) (h : decodeE w = .instr i) :
    WellFormed i = true ∧ encode i = w := by
  unfold decodeE at h
  split at h <;> cases h <;> exact ⟨rfl, formXNN_of_fieldNN hf ‹_›⟩

/-- Each arm of family F answers the instruction whose low byte is the one it matched (R89). -/
theorem encode_of_decodeF {w : Word} {i : Instr} (hf : family w = 0xF) (h : decodeF w = .instr i) :
    WellFormed i = true ∧ encode i = w := by
  unfold decodeF at h
  split at h <;> cases h <;> exact ⟨rfl, formXNN_of_fieldNN hf ‹_›⟩

/-- Decoding selects on the family: each of the four families with a further selection, or an instruction that holds all
the word's fields (R84). -/
theorem encode_of_decode {w : Word} {i : Instr} (h : decode w = .instr i) : WellFormed i = true ∧ encode i = w := by
  unfold decode at h
  split at h
  case h_1 hf => exact encode_of_decode0 hf h
  case h_9 hf => exact encode_of_decode8 hf h
  case h_15 hf => exact encode_of_decodeE hf h
  case h_16 =>
    refine encode_of_decodeF ?_ h
    have hlt := family_lt w
    simp only [imp_false] at *
    omega
  case h_2 hf | h_3 hf | h_11 hf | h_12 hf =>
    cases h
    exact ⟨rfl, eq_formNNN hf⟩
  case h_4 hf | h_5 hf | h_7 hf | h_8 hf | h_13 hf =>
    cases h
    exact ⟨rfl, eq_formXNN hf⟩
  case h_6 hf | h_10 hf | h_14 hf =>
    cases h
    exact ⟨rfl, eq_formXYN hf⟩

/-- Settles O2: each arm keeps every field of the word that it does not select on. -/
theorem encodeUndoesDecode : Obligations.EncodeUndoesDecode := fun _ _ => encode_of_decode

/-! ### The rows of the opcode map -/

/-- The word of a well-formed instruction matches the instruction's row (R91). -/
theorem encode_matches_row (i : Instr) : Laws.TableMatch.Statement i :=
  match i with
  | .sys nnn => Laws.TableMatch.sys nnn
  | .cls => Laws.TableMatch.cls
  | .ret => Laws.TableMatch.ret
  | .jp nnn => Laws.TableMatch.jp nnn
  | .call nnn => Laws.TableMatch.call nnn
  | .seImm x nn => Laws.TableMatch.seImm x nn
  | .sneImm x nn => Laws.TableMatch.sneImm x nn
  | .seReg x y n => Laws.TableMatch.seReg x y n
  | .ldImm x nn => Laws.TableMatch.ldImm x nn
  | .addImm x nn => Laws.TableMatch.addImm x nn
  | .ldReg x y => Laws.TableMatch.ldReg x y
  | .orReg x y => Laws.TableMatch.orReg x y
  | .andReg x y => Laws.TableMatch.andReg x y
  | .xorReg x y => Laws.TableMatch.xorReg x y
  | .addReg x y => Laws.TableMatch.addReg x y
  | .subReg x y => Laws.TableMatch.subReg x y
  | .shrReg x y => Laws.TableMatch.shrReg x y
  | .subnReg x y => Laws.TableMatch.subnReg x y
  | .shlReg x y => Laws.TableMatch.shlReg x y
  | .sneReg x y n => Laws.TableMatch.sneReg x y n
  | .ldI nnn => Laws.TableMatch.ldI nnn
  | .jpV0 nnn => Laws.TableMatch.jpV0 nnn
  | .rnd x nn => Laws.TableMatch.rnd x nn
  | .drw x y n => Laws.TableMatch.drw x y n
  | .skp x => Laws.TableMatch.skp x
  | .sknp x => Laws.TableMatch.sknp x
  | .ldVxDt x => Laws.TableMatch.ldVxDt x
  | .ldVxK x => Laws.TableMatch.ldVxK x
  | .ldDtVx x => Laws.TableMatch.ldDtVx x
  | .ldStVx x => Laws.TableMatch.ldStVx x
  | .addIVx x => Laws.TableMatch.addIVx x
  | .ldFVx x => Laws.TableMatch.ldFVx x
  | .ldBVx x => Laws.TableMatch.ldBVx x
  | .storeRegs x => Laws.TableMatch.storeRegs x
  | .loadRegs x => Laws.TableMatch.loadRegs x

/-- Settles O3: a decoded word is the word of its well-formed instruction, and that word matches its row. -/
theorem decodedWordMatchesItsRow : Obligations.DecodedWordMatchesItsRow := by
  intro w i h
  obtain ⟨hwf, rfl⟩ := encode_of_decode h
  exact encode_matches_row i hwf

/-! ### Which words decode to an instruction, by the fields of R81 -/

/-- A word of shape `F NNN` is its fields. -/
theorem formNNN_of_wordF {w : Word} {f : Nibble} (hf : wordF w = f) : formNNN f (wordNNN w) = w :=
  fieldNNN_eq_wordNNN w ▸ eq_formNNN (hf ▸ family_eq_wordF w)

/-- A word of shape `F X NN` is its fields. -/
theorem formXNN_of_wordF {w : Word} {f : Nibble} (hf : wordF w = f) : formXNN f (wordX w) (wordNN w) = w :=
  fieldX_eq_wordX w ▸ fieldNN_eq_wordNN w ▸ eq_formXNN (hf ▸ family_eq_wordF w)

/-- A word of shape `F X Y N` is its fields. -/
theorem formXYN_of_wordF {w : Word} {f : Nibble} (hf : wordF w = f) :
    formXYN f (wordX w) (wordY w) (wordN w) = w :=
  fieldX_eq_wordX w ▸ fieldY_eq_wordY w ▸ fieldN_eq_wordN w ▸ eq_formXYN (hf ▸ family_eq_wordF w)

theorem formXNN_of_wordF_wordNN {w : Word} {f : Nibble} {nn : Byte} (hF : wordF w = f) (hNN : wordNN w = nn) :
    formXNN f (wordX w) nn = w :=
  hNN ▸ formXNN_of_wordF hF

theorem formXYN_of_wordF_wordN {w : Word} {f n : Nibble} (hF : wordF w = f) (hN : wordN w = n) :
    formXYN f (wordX w) (wordY w) n = w :=
  hN ▸ formXYN_of_wordF hF

/-- A word decodes to the well-formed instruction that it is the word of. -/
theorem decode_of_encode_eq {w : Word} {i : Instr} (h : encode i = w) (hwf : WellFormed i = true := by rfl) :
    decode w = .instr i :=
  h ▸ decode_encode hwf

/-- Settles O5, by evaluating the decoder on the twenty-one words. -/
theorem sampleWordsDecode : Obligations.SampleWordsDecode := by
  unfold Obligations.SampleWordsDecode
  decide

/-- The unrecognized words of family 8 (R87, R90). -/
theorem decode8_eq_unknownOpcode_iff {w u : Word} :
    decode8 w = .unknownOpcode u ↔
      u = w ∧ wordN w ∉ [0x0#4, 0x1#4, 0x2#4, 0x3#4, 0x4#4, 0x5#4, 0x6#4, 0x7#4, 0xE#4] := by
  unfold decode8
  rw [← fieldN_eq_wordN]
  split <;> simp_all [← BitVec.toNat_inj, eq_comm]

/-- The unrecognized words of family E (R88, R90). -/
theorem decodeE_eq_unknownOpcode_iff {w u : Word} :
    decodeE w = .unknownOpcode u ↔ u = w ∧ wordNN w ∉ [0x9E#8, 0xA1#8] := by
  unfold decodeE
  rw [← fieldNN_eq_wordNN]
  split <;> simp_all [← BitVec.toNat_inj, eq_comm]

/-- The unrecognized words of family F (R89, R90). -/
theorem decodeF_eq_unknownOpcode_iff {w u : Word} :
    decodeF w = .unknownOpcode u ↔
      u = w ∧ wordNN w ∉ [0x07#8, 0x0A#8, 0x15#8, 0x18#8, 0x1E#8, 0x29#8, 0x33#8, 0x55#8, 0x65#8] := by
  unfold decodeF
  rw [← fieldNN_eq_wordNN]
  split <;> simp_all [← BitVec.toNat_inj, eq_comm]

/-- A word without an instruction is of a family with a further selection, and that selection rejects it (R84, R90). -/
theorem decode_unknownOpcode_cases {w u : Word} (h : decode w = .unknownOpcode u) :
    (wordF w = 0x8 ∧ decode8 w = .unknownOpcode u) ∨ (wordF w = 0xE ∧ decodeE w = .unknownOpcode u) ∨
      (wordF w = 0xF ∧ decodeF w = .unknownOpcode u) := by
  simp only [← BitVec.toNat_inj, ← family_eq_wordF]
  unfold decode at h
  split at h
  case h_1 =>
    unfold decode0 at h
    split_ifs at h
  case h_9 hf => exact .inl ⟨hf, h⟩
  case h_15 hf => exact .inr (.inl ⟨hf, h⟩)
  case h_16 =>
    refine .inr (.inr ⟨?_, h⟩)
    have hlt := family_lt w
    simp only [imp_false] at *
    show family w = 15
    omega
  all_goals cases h

end Sys2Proof.Machine

/-! PROOFS. What a step answers and what it reports: the tabled errors, the rollback, the frozen core (R110, R122, R126,
R290 to R292). -/

namespace Sys2Proof.Machine

/-! ### The tabled errors -/

/-- An instruction with a row in the table raises that row's error (R291). -/
theorem exec_of_fatalOf {i : Instr} {s : State} {k : FatalKind} {e : Word} (h : fatalOf i s = some (k, e)) :
    exec i s = .next (raiseInHandler k e s) := by
  have hne : fatalOf i s ≠ none := by simp [h]
  cases i with
  | ret =>
    obtain ⟨hsp, ⟨⟩⟩ := Option.ite_none_right_eq_some.mp h
    exact execRet_raises hsp
  | call nnn =>
    obtain ⟨hsp, ⟨⟩⟩ := Option.ite_none_right_eq_some.mp h
    exact execCall_raises nnn hsp
  | drw x y n =>
    obtain ⟨-, ⟨⟩⟩ := Option.ite_none_right_eq_some.mp h
    exact congrArg _ (orAddressingError_map_readBytes_raises s _ (mt (fatalOf_drw_eq_none_iff x y n s).mpr hne))
  | ldBVx x =>
    obtain ⟨-, ⟨⟩⟩ := Option.ite_none_right_eq_some.mp h
    exact congrArg _ (orAddressingError_writeBytes_raises s (List.cons_ne_nil _ _)
      (mt (fatalOf_ldBVx_eq_none_iff x s).mpr hne))
  | storeRegs x =>
    obtain ⟨-, ⟨⟩⟩ := Option.ite_none_right_eq_some.mp h
    have hout := mt (fatalOf_storeRegs_eq_none_iff x s).mpr hne
    rw [← firstRegs_blockLength s x] at hout
    exact congrArg _ (orAddressingError_writeBytes_raises s (firstRegs_blockLength_ne_nil s x) hout)
  | loadRegs x =>
    obtain ⟨-, ⟨⟩⟩ := Option.ite_none_right_eq_some.mp h
    exact congrArg _ (orAddressingError_map_readBytes_raises s _
      (not_or.mpr ⟨Nat.succ_ne_zero x.val, mt (fatalOf_loadRegs_eq_none_iff x s).mpr hne⟩))
  | _ => cases h

/-- Every instruction answers a next state, whose latch is the table's if it was clear before (R291). -/
theorem exec_fault (i : Instr) {s : State} (hs : s.fault = none) :
    ∃ t, exec i s = .next t ∧ t.fault = (fatalOf i s).map fun e => ⟨e.1, s.pc - 2, e.2⟩ := by
  cases hfatal : fatalOf i s with
  | some e => exact ⟨_, exec_of_fatalOf hfatal, rfl⟩
  | none =>
    obtain ⟨t, ht, hframe⟩ := exec_writesOnlyTargets i s
    exact ⟨t, ht, (hframe.fault_eq hfatal).trans hs⟩

/-- A fetch outside memory raises (R62, R111). -/
theorem step_fetch_error {s : State} (hf : s.fault = none) (hi : s.inputState = .running) (h : 0xFFF ≤ s.pc.toNat) :
    step s = .next (raiseFatal s.pc .addressingError (lowestOutOfRange s.pc.toNat) s) :=
  step_of_done (beginStep_fetch_error hf hi h)

/-- Settles O46: an instruction's latch is the table's, and a fetch outside memory has its own. -/
theorem fatalErrorsAreTheTabledOnes : Obligations.FatalErrorsAreTheTabledOnes :=
  ⟨fun i _ hs => exec_fault i hs, fun _ hf hi hpc => step_fetch_error hf hi (Nat.le_of_lt_succ hpc)⟩

/-! ### What a step answers -/

theorem Fetches.running {s : State} {w : Word} (h : Fetches s w) : s.inputState = .running := h.2.1

theorem Fetches.pc_lt {s : State} {w : Word} (h : Fetches s w) : s.pc.toNat < 0xFFF := h.2.2.1

/-- A core that fetches an unrecognized word advances PC and completes (R90). -/
theorem step_unknown {s : State} {w u : Word} (hw : Fetches s w) (hd : decode w = .unknownOpcode u) :
    step s = .next (completeStep (advancePc s)) :=
  step_of_done (beginStep_unknown hw hd)

/-- The step of a fetched instruction that raises is the raise: it does not tick (R110, R300). -/
theorem step_of_raises {s t : State} {w : Word} {i : Instr} (hw : Fetches s w) (hd : decode w = .instr i)
    (he : exec i (advancePc s) = .next t) (ht : t.fault ≠ none) : step s = .next t := by
  obtain ⟨f, hf⟩ := Option.ne_none_iff_exists'.mp ht
  rw [step_of_execute (beginStep_instr hw hd), he, finishStep_next_of_fault hf]

/-! ### The latch fits the state it froze -/

theorem le_lowestOutOfRange {a : Nat} (h : a < 65536) : 0x1000 ≤ (lowestOutOfRange a).toNat := by
  rw [lowestOutOfRange, BitVec.toNat_ofNat, Nat.mod_eq_of_lt (by omega)]
  exact Nat.le_max_right a 0x1000

/-- The latch of an access that starts at a 16-bit address records an address out of range (R64, R290). -/
theorem faultSound_addressingError (p a : Word) (s : State) :
    FaultSound (raiseFatal p .addressingError (lowestOutOfRange a.toNat) s) := by
  rintro f ⟨⟩
  exact ⟨rfl, le_lowestOutOfRange a.isLt⟩

/-- An error of the table leaves a latch that fits the state it froze (R290, R291). -/
theorem faultSound_of_fatalOf {i : Instr} {s : State} {k : FatalKind} {e : Word} (h : fatalOf i s = some (k, e)) :
    FaultSound (raiseInHandler k e s) := by
  cases i with
  | ret =>
    obtain ⟨hsp, ⟨⟩⟩ := Option.ite_none_right_eq_some.mp h
    rintro f ⟨⟩
    exact ⟨rfl, rfl, hsp⟩
  | call nnn =>
    obtain ⟨hsp, ⟨⟩⟩ := Option.ite_none_right_eq_some.mp h
    rintro f ⟨⟩
    exact ⟨rfl, rfl, hsp⟩
  | drw | ldBVx | storeRegs | loadRegs =>
    obtain ⟨-, ⟨⟩⟩ := Option.ite_none_right_eq_some.mp h
    exact faultSound_addressingError _ s.i s
  | _ => cases h

/-! ### All that a step can be -/

/-- All that a step can be, with what it answers: frozen; waiting; an error, which leaves the state before the step and
a latch that fits it; an unrecognized word; or an instruction that completes (R110, R122, R126). -/
theorem step_outcomes (s : State) :
    (s.fault ≠ none ∧ step s = .next s) ∨
    (s.fault = none ∧ s.inputState = .awaitingKey ∧ step s = .next (completeStep s)) ∨
    (s.fault = none ∧ ∃ k e, step s = .next (raiseFatal s.pc k e s) ∧ FaultSound (raiseFatal s.pc k e s)) ∨
    (∃ w u, Fetches s w ∧ decode w = .unknownOpcode u ∧ step s = .next (completeStep (advancePc s))) ∨
    (∃ w i t, Fetches s w ∧ decode w = .instr i ∧ fatalOf i (advancePc s) = none ∧ exec i (advancePc s) = .next t ∧
      t.fault = none ∧ step s = .next (completeStep t)) := by
  rcases beginStep_cases s with ⟨f, hf, -⟩ | ⟨hf, hi, -⟩ | ⟨hf, hi, hpc, -⟩ | ⟨w, u, hw, hd, -⟩ | ⟨w, i, hw, hd, -⟩
  · have hne : s.fault ≠ none := by simp [hf]
    exact .inl ⟨hne, step_frozen hne⟩
  · exact .inr (.inl ⟨hf, hi, step_awaiting hf hi⟩)
  · exact .inr (.inr (.inl ⟨hf, _, _, step_fetch_error hf hi hpc, faultSound_addressingError s.pc s.pc s⟩))
  · exact .inr (.inr (.inr (.inl ⟨w, u, hw, hd, step_unknown hw hd⟩)))
  · cases hfatal : fatalOf i (advancePc s) with
    | none =>
      obtain ⟨t, ht, hclear⟩ := exec_fault i (s := advancePc s) hw.1
      rw [hfatal] at hclear
      exact .inr (.inr (.inr (.inr ⟨w, i, t, hw, hd, hfatal, ht, hclear, step_of_completes hw hd ht hclear⟩)))
    | some e =>
      have hraise := exec_of_fatalOf hfatal
      have hsound := faultSound_of_fatalOf hfatal
      rw [raiseInHandler_advancePc] at hraise hsound
      exact .inr (.inr (.inl ⟨hw.1, _, _, step_of_raises hw hd hraise nofun, hsound⟩))

/-- Settles O45: of the outcomes of a step only the error sets a clear latch, and it leaves the rest as it was. -/
theorem fatalErrorRollsBackStep : Obligations.FatalErrorRollsBackStep := by
  intro s
  rcases step_outcomes s with ⟨hf, h⟩ | ⟨hf, -, h⟩ | ⟨-, k, e, h, -⟩ | ⟨-, -, hw, -, h⟩ | ⟨-, -, t, -, -, -, -, ht, h⟩
  case inr.inr.inl =>
    refine ⟨_, h, fun f _ hf => ?_⟩
    cases hf
    exact ⟨rfl, rfl⟩
  all_goals refine ⟨_, h, fun f hs ht' => ?_⟩
  · exact absurd hs hf
  · simp [hf] at ht'
  · simp [hs, advancePc] at ht'
  · simp [ht] at ht'

/-- The end of a step that did not fault, with the timers as numbers (R110, R300). -/
theorem completeStep_eq (s : State) : completeStep s = { s with
    dt := BitVec.ofNat 8 (s.dt.toNat - 1), st := BitVec.ofNat 8 (s.st.toNat - 1), rndIndex := s.rndIndex + 1 } := by
  rw [← tickTimer_toNat, ← tickTimer_toNat, BitVec.ofNat_toNat, BitVec.ofNat_toNat, BitVec.setWidth_eq,
    BitVec.setWidth_eq]
  rfl

/-- Settles O41: the step of a fetched instruction that completes, of one that raises, and of a failing fetch. -/
theorem stepRunsDecodedInstruction : Obligations.StepRunsDecodedInstruction := by
  refine ⟨fun s w i t hw hd he => ⟨fun ht => ?_, step_of_raises hw hd he⟩, fun s hf hi hpc => ?_⟩
  · rw [step_of_completes hw hd he ht, completeStep_eq]
  · exact ⟨_, step_fetch_error hf hi (Nat.le_of_lt_succ hpc), rfl⟩

/-! ### What a step reports -/

theorem stepResult_frozen {s : State} (hf : s.fault ≠ none) : stepResult s = .halted := by
  obtain ⟨f, hf⟩ := Option.ne_none_iff_exists'.mp hf
  simp [stepResult, hf]

theorem stepResult_of_raises {s t : State} {f : FaultRecord} (hs : s.fault = none) (h : step s = .next t)
    (ht : t.fault = some f) : stepResult s = .error f := by
  simp [stepResult, hs, h, ht]

theorem stepResult_of_completes {s t : State} (hs : s.fault = none) (h : step s = .next t) (ht : t.fault = none) :
    stepResult s = okResult s := by
  simp [stepResult, hs, h, ht]

theorem okResult_awaiting {s : State} (hi : s.inputState = .awaitingKey) : okResult s = .ok := by
  simp [okResult, hi]

theorem okResult_instr {s : State} {w : Word} {i : Instr} (hw : Fetches s w) (hd : decode w = .instr i) :
    okResult s = .ok := by
  simp [okResult, hw.running, hw.fetchWord, hd]

theorem okResult_unknown {s : State} {w u : Word} (hw : Fetches s w) (hd : decode w = .unknownOpcode u) :
    okResult s = .okUnknownOpcode u := by
  simp [okResult, hw.running, hw.fetchWord, hd]

/-- Settles O56: the three kinds of report, and the Ok of an instruction and of a wait. -/
theorem stepReportsItsResult : Obligations.StepReportsItsResult := by
  refine ⟨fun _ => stepResult_frozen, fun _ _ _ => stepResult_of_raises, fun s t w i hw hd h ht => ?_,
    fun s hf hi => ?_⟩
  · rw [stepResult_of_completes hw.1 h ht, okResult_instr hw hd]
  · rw [stepResult_of_completes hf (step_awaiting hf hi) hf, okResult_awaiting hi]

/-- Settles O4: the rejected words are those that a further selection rejects, and their step is the fetch's advance
and the completion. -/
theorem unrecognizedWordsAreNoOps : Obligations.UnrecognizedWordsAreNoOps := by
  refine ⟨fun w => ⟨?_, ?_⟩, fun w u h => ?_, fun s w hw hd => ?_⟩
  · rintro ⟨u, h⟩
    rcases decode_unknownOpcode_cases h with ⟨hF, h⟩ | ⟨hF, h⟩ | ⟨hF, h⟩
    · exact .inl ⟨hF, (decode8_eq_unknownOpcode_iff.mp h).2⟩
    · exact .inr (.inl ⟨hF, (decodeE_eq_unknownOpcode_iff.mp h).2⟩)
    · exact .inr (.inr ⟨hF, (decodeF_eq_unknownOpcode_iff.mp h).2⟩)
  · rintro (⟨hF, h⟩ | ⟨hF, h⟩ | ⟨hF, h⟩)
    · exact ⟨w, decode_of_family8 hF ▸ decode8_eq_unknownOpcode_iff.mpr ⟨rfl, h⟩⟩
    · exact ⟨w, decode_of_familyE hF ▸ decodeE_eq_unknownOpcode_iff.mpr ⟨rfl, h⟩⟩
    · exact ⟨w, decode_of_familyF hF ▸ decodeF_eq_unknownOpcode_iff.mpr ⟨rfl, h⟩⟩
  · rcases decode_unknownOpcode_cases h with ⟨-, h⟩ | ⟨-, h⟩ | ⟨-, h⟩
    · exact (decode8_eq_unknownOpcode_iff.mp h).1
    · exact (decodeE_eq_unknownOpcode_iff.mp h).1
    · exact (decodeF_eq_unknownOpcode_iff.mp h).1
  · have hstep := step_unknown hw hd
    refine ⟨_, hstep, rfl, tickTimer_toNat s.dt, tickTimer_toNat s.st, ?_, ?_⟩
    · exact ((setPc_changesOnly s _).mono fun _ => .inl).trans ((completeStep_changesOnly _).mono fun _ => .inr)
    · rw [stepResult_of_completes hw.1 hstep hw.1, okResult_unknown hw hd]

/-! ### The frozen core -/

theorem pressKey_frozen (k : Key) {s : State} (hf : s.fault ≠ none) : pressKey k s = s := by
  rcases pressKey_cases k s with ⟨-, h⟩ | ⟨hnone, -⟩ | ⟨hnone, -⟩
  · exact h
  · exact absurd hnone hf
  · exact absurd hnone hf

theorem loadProgram_fault (bytes : List Byte) (s : State) : (loadProgram bytes s).fault = s.fault := by
  obtain ⟨m, hm, -, -⟩ := loadProgram_eq bytes s
  rw [hm, State.setMem_fault]

/-- No host operation but reset clears a set latch (R122, R123). -/
theorem applyOp_frozen {op : HostOp} {s t : State} (hf : s.fault ≠ none) (hop : op ≠ .reset)
    (h : applyOp op s = .next t) : t.fault = s.fault := by
  cases op with
  | step =>
    cases (step_frozen hf).symm.trans h
    rfl
  | pressKey k =>
    cases h
    rw [pressKey_frozen k hf]
  | loadProgram bytes =>
    cases h
    exact loadProgram_fault bytes s
  | reset => exact absurd rfl hop
  | framebufferSnapshot | isAwaitingKey | faultStatus | soundActive =>
    cases h
    rfl

/-- Settles O43: with the latch set, the step, the key press and the load leave it, and reset clears it. -/
theorem frozenUntilReset : Obligations.FrozenUntilReset := by
  intro s f hf
  have hne : s.fault ≠ none := by simp [hf]
  refine ⟨step_frozen hne, stepResult_frozen hne, fun k => ⟨pressKey_frozen k hne, ?_⟩, congrArg _ hf,
    fun op t hop h => (applyOp_frozen hne hop h).trans hf, _, rfl, rfl⟩
  simp [opResult, hf]

end Sys2Proof.Machine

/-! PROOFS. All that RET, CALL and a skip can do (R141, R143, R144), and the operand of JP V0 (R148). -/

namespace Sys2Proof.Machine

/-- RET with entries in use (R141). -/
theorem execRet_pops {s : State} {k : Fin 16} (h : s.sp.val = k.val + 1) :
    execRet s = .next { s with sp := ⟨k.val, by omega⟩, pc := s.stack[k.val] } := by
  simp only [execRet, popStack_of_pos s k h]
  rfl

/-- RET underflows on an empty stack and pops otherwise (R141). -/
theorem execRet_cases (s : State) :
    (s.sp.val = 0 ∧ execRet s = .next (raiseInHandler .stackUnderflow 0 s)) ∨
    ∃ k : Fin 16, s.sp.val = k.val + 1 ∧
      execRet s = .next { s with sp := ⟨k.val, by omega⟩, pc := s.stack[k.val] } := by
  by_cases h : s.sp.val = 0
  · exact .inl ⟨h, execRet_raises h⟩
  · have hk : s.sp.val = (⟨s.sp.val - 1, by omega⟩ : Fin 16).val + 1 := (Nat.succ_pred h).symm
    exact .inr ⟨_, hk, execRet_pops hk⟩

/-- CALL with an entry free (R143). -/
theorem execCall_pushes (nnn : Imm12) {s : State} {k : Fin 16} (h : s.sp.val = k.val) :
    execCall nnn s = .next
      { s with stack := s.stack.set k.val s.pc, sp := ⟨k.val + 1, by omega⟩, pc := zextImm nnn } := by
  simp only [execCall, pushStack_of_lt s s.pc k h]
  rfl

/-- CALL overflows on a full stack and pushes otherwise (R143). -/
theorem execCall_cases (nnn : Imm12) (s : State) :
    (s.sp.val = 16 ∧ execCall nnn s = .next (raiseInHandler .stackOverflow 16 s)) ∨
    ∃ k : Fin 16, s.sp.val = k.val ∧ execCall nnn s = .next
      { s with stack := s.stack.set k.val s.pc, sp := ⟨k.val + 1, by omega⟩, pc := zextImm nnn } := by
  by_cases h : s.sp.val = 16
  · exact .inl ⟨h, execCall_raises nnn h⟩
  · have hk : s.sp.val = (⟨s.sp.val, by omega⟩ : Fin 16).val := rfl
    exact .inr ⟨_, hk, execCall_pushes nnn hk⟩

theorem zextByte_toNat (b : Byte) : (zextByte b).toNat = b.toNat := by
  have := b.isLt
  simp only [zextByte, BitVec.toNat_setWidth]
  omega

/-- A skip leaves PC alone or advances it, and changes nothing else (R144). -/
theorem skipIf_induction {P : State → Prop} (c : Bool) {s : State} (hskip : P (skipNext s)) (hstay : P s) :
    P (skipIf c s) := by
  cases c
  · exact hstay
  · exact hskip

end Sys2Proof.Machine

/-! PROOFS. The invariants: canonical memory and a truthful latch, and the bounds on PC and the return addresses, each
kept by every host operation and met after reset (R27, R41, R60, R290, R292). -/

namespace Sys2Proof.Machine

/-! ### Canonical memory and the latch -/

theorem FaultSound.of_clear {s : State} (h : s.fault = none) : FaultSound s := fun f hf => by simp [h] at hf

/-- A state with another state's memory and parameters, and a clear latch, meets the invariant if the other does. -/
theorem Inv.of_clear {s : State} (hwf : Memory.wf s.params s.mem) (h : s.fault = none) : Inv s :=
  ⟨hwf, .of_clear h⟩

/-- A handler that may raise AddressingError keeps the canonical form if its completing state has it. -/
theorem orAddressingError_map_wf {α : Type} {s : State} (r : Except Nat α) {f : α → State}
    (hwf : Memory.wf s.params s.mem) (h : ∀ a, Memory.wf (f a).params (f a).mem) :
    Memory.wf (orAddressingError s (r.map f)).params (orAddressingError s (r.map f)).mem := by
  cases r with
  | ok a => exact h a
  | error e => exact hwf

/-- Only FX33 and FX55 write memory, and their block writes keep its canonical form (R60, R66). -/
theorem exec_keeps_wf {i : Instr} {s t : State} (hwf : Memory.wf s.params s.mem) (h : exec i s = .next t) :
    Memory.wf t.params t.mem := by
  cases i with
  | ldBVx | storeRegs =>
    cases h
    exact orAddressingError_writeBytes_wf s _ _ hwf
  | drw x y n =>
    cases h
    exact orAddressingError_map_wf _ hwf fun _ => hwf
  | loadRegs x =>
    cases h
    refine orAddressingError_map_wf _ hwf fun bs => ?_
    rw [writeRegs_eq]
    exact hwf
  | ret =>
    rcases execRet_cases s with ⟨-, hr⟩ | ⟨k, -, hr⟩ <;> cases hr.symm.trans h <;> exact hwf
  | call nnn =>
    rcases execCall_cases nnn s with ⟨-, hr⟩ | ⟨k, -, hr⟩ <;> cases hr.symm.trans h <;> exact hwf
  | seImm | sneImm | seReg | sneReg =>
    cases h
    exact skipIf_induction (P := fun t => Memory.wf t.params t.mem) _ hwf hwf
  | skp | sknp =>
    cases h
    split <;> exact hwf
  | _ =>
    cases h
    exact hwf

/-- Settles O58: a step that sets the latch leaves one that fits, and any other leaves it clear. -/
theorem stepKeepsInvariant : Obligations.StepKeepsInvariant := by
  intro s t hinv h
  obtain ⟨hwf, hsound⟩ := hinv
  rcases step_outcomes s with
    ⟨-, ht⟩ | ⟨hf, -, ht⟩ | ⟨-, k, e, ht, hsound'⟩ | ⟨w, -, hw, -, ht⟩ | ⟨-, i, u, -, -, -, he, hclear, ht⟩
  all_goals cases ht.symm.trans h
  · exact ⟨hwf, hsound⟩
  · exact .of_clear hwf hf
  · exact ⟨hwf, hsound'⟩
  · exact .of_clear hwf hw.1
  · have hwf' : Memory.wf u.params u.mem := exec_keeps_wf (s := advancePc s) hwf he
    exact .of_clear hwf' hclear

theorem pressKey_keeps_inv (k : Key) {s : State} (h : Inv s) : Inv (pressKey k s) := by
  rcases pressKey_cases k s with ⟨-, hp⟩ | ⟨hf, -, hp⟩ | ⟨hf, -, hp⟩ <;> rw [hp]
  · exact h
  · exact .of_clear h.1 hf
  · exact .of_clear h.1 hf

/-- Loading a program keeps the canonical form, and the latch and the pieces of state that it describes (R115). -/
theorem loadProgram_keeps_inv (bytes : List Byte) {s : State} (h : Inv s) : Inv (loadProgram bytes s) := by
  obtain ⟨m, hm, hwf, -⟩ := loadProgram_eq bytes s
  rw [hm]
  exact ⟨hwf h.1, h.2⟩

theorem resetWith_inv (p : Params) (n : Nat) : Inv (State.resetWith p n) :=
  .of_clear ⟨List.Pairwise.nil, nofun⟩ rfl

/-- Settles O59: the key press touches no latch, the load keeps memory canonical, and reset clears both. -/
theorem hostOperationsKeepInvariant : Obligations.HostOperationsKeepInvariant := by
  intro op s t hop hinv h
  cases op with
  | step => exact absurd rfl hop
  | pressKey k =>
    cases h
    exact pressKey_keeps_inv k hinv
  | loadProgram bytes =>
    cases h
    exact loadProgram_keeps_inv bytes hinv
  | reset =>
    cases h
    exact resetWith_inv s.params s.rndIndex
  | framebufferSnapshot | isAwaitingKey | faultStatus | soundActive =>
    cases h
    exact hinv

/-! ### The bounds on PC -/

theorem PcBounded.pc_le {s : State} (h : PcBounded s) : s.pc.toNat ≤ 0x10FE := h.1

theorem PcBounded.pc_le_of_awaiting {s : State} (h : PcBounded s) (hi : s.inputState = .awaitingKey) :
    s.pc.toNat ≤ 0x1000 := h.2.1 hi

theorem PcBounded.stack_le {s : State} (h : PcBounded s) (k : Fin 16) : (s.stack[k.val]).toNat ≤ 0x1000 := h.2.2 k

/-- A running core may take any PC up to 0x10FE. -/
theorem PcBounded.setPc {s : State} {w : Word} (h : PcBounded s) (hrun : s.inputState = .running)
    (hw : w.toNat ≤ 0x10FE) : PcBounded (s.setPc w) :=
  ⟨hw, fun hwait => by simp [hrun] at hwait, h.stack_le⟩

/-- A pushed return address of at most 0x1000 keeps the bounds (R143). -/
theorem PcBounded.pushed {s : State} (h : PcBounded s) (k : Fin 16) {w : Word} (hw : w.toNat ≤ 0x1000) (sp : Fin 17) :
    PcBounded { s with stack := s.stack.set k.val w, sp := sp } := by
  refine ⟨h.pc_le, h.pc_le_of_awaiting, fun j => ?_⟩
  show ((s.stack.set k.val w)[j.val]).toNat ≤ 0x1000
  rw [Vector.getElem_set]
  split
  · exact hw
  · exact h.stack_le j

/-- The bounds concern PC, the input state and the stack alone. -/
theorem PcBounded.of_frame {parts : Part → Prop} {s t : State} (h : PcBounded s) (hframe : ChangesOnly parts s t)
    (hpc : ¬ parts .pc) (hinput : ¬ parts .inputState) (hstack : ∀ k, ¬ parts (.stack k)) : PcBounded t := by
  obtain ⟨hle, hwait, hentry⟩ := h
  have ht_pc : t.pc = s.pc := hframe .pc hpc
  have ht_input : t.inputState = s.inputState := hframe .inputState hinput
  have ht_stack : ∀ k : Fin 16, t.stack[k.val] = s.stack[k.val] := fun k => hframe (.stack k) (hstack k)
  exact ⟨ht_pc ▸ hle, fun hi => ht_pc ▸ hwait (ht_input ▸ hi), fun k => ht_stack k ▸ hentry k⟩

/-- An advance by 2 from a PC within the bounds does not wrap (R27). -/
theorem toNat_add_two {w : Word} (h : w.toNat ≤ 0x10FE) : (w + 2).toNat = w.toNat + 2 :=
  BitVec.toNat_add_of_lt (show w.toNat + 2 < 65536 by omega)

/-- JP V0 reaches 0x10FE at most (R148). -/
theorem jpV0_target_le (b : Byte) (nnn : Imm12) : (zextByte b + zextImm nnn).toNat ≤ 0x10FE := by
  have hb := b.isLt
  have himm := nnn.isLt
  rw [BitVec.toNat_add, zextByte_toNat, zextImm_toNat]
  omega

/-- A completing instruction of a running core whose PC is at most 0x1000 keeps the bounds: jumps reach 0xFFF, JP V0
0x10FE, a skip 0x1002, a return what a call pushed (R141 to R148, R265). -/
theorem exec_keeps_pcBounded {i : Instr} {s t : State} (hb : PcBounded s) (hrun : s.inputState = .running)
    (hpc : s.pc.toNat ≤ 0x1000) (hfatal : fatalOf i s = none) (h : exec i s = .next t) : PcBounded t := by
  have hskip : PcBounded (skipNext s) := hb.setPc hrun (by rw [toNat_add_two hb.pc_le]; omega)
  have himm (nnn : Imm12) : (zextImm nnn).toNat ≤ 0xFFF := zextImm_toNat nnn ▸ Nat.le_of_lt_succ nnn.isLt
  cases i with
  | jp nnn =>
    cases h
    exact hb.setPc hrun (Nat.le_trans (himm nnn) (by decide))
  | jpV0 nnn =>
    cases h
    exact hb.setPc hrun (jpV0_target_le _ nnn)
  | call nnn =>
    rcases execCall_cases nnn s with ⟨hsp, -⟩ | ⟨k, -, hc⟩
    · exact absurd hsp ((fatalOf_call_eq_none_iff nnn s).mp hfatal)
    · cases hc.symm.trans h
      exact (hb.pushed k hpc _).setPc hrun (Nat.le_trans (himm nnn) (by decide))
  | ret =>
    rcases execRet_cases s with ⟨hsp, -⟩ | ⟨k, -, hr⟩
    · exact absurd hsp ((fatalOf_ret_eq_none_iff s).mp hfatal)
    · cases hr.symm.trans h
      exact hb.setPc hrun (Nat.le_trans (hb.stack_le k) (by decide))
  | seImm | sneImm | seReg | sneReg =>
    cases h
    exact skipIf_induction _ hskip hb
  | skp x =>
    cases h
    split
    · exact hskip
    · exact hb
  | sknp x =>
    cases h
    split
    · exact hb
    · exact hskip
  | ldVxK x =>
    cases h
    exact ⟨hb.pc_le, fun _ => hpc, hb.stack_le⟩
  | _ =>
    obtain ⟨u, hu, hframe⟩ := exec_writesOnlyTargets _ s
    cases hu.symm.trans h
    exact hb.of_frame (hframe.1 hfatal) (by simp [mayWrite]) (by simp [mayWrite]) (by simp [mayWrite])

/-- A step keeps the bounds: a fetch needs PC at most 0xFFE, so the instruction runs with PC at most 0x1000 (R111). -/
theorem step_keeps_pcBounded {s t : State} (hb : PcBounded s) (h : step s = .next t) : PcBounded t := by
  have hadvance {w : Word} (hw : Fetches s w) : PcBounded (advancePc s) ∧ (advancePc s).pc.toNat ≤ 0x1000 := by
    have hle : (s.pc + 2).toNat ≤ 0x1000 := by
      rw [toNat_add_two hb.pc_le]
      exact Nat.succ_le_succ hw.pc_lt
    exact ⟨hb.setPc hw.running (Nat.le_trans hle (by decide)), hle⟩
  rcases step_outcomes s with
    ⟨-, ht⟩ | ⟨-, -, ht⟩ | ⟨-, k, e, ht, -⟩ | ⟨w, -, hw, -, ht⟩ | ⟨w, i, u, hw, -, hfatal, he, -, ht⟩
  all_goals cases ht.symm.trans h
  · exact hb
  · exact hb
  · exact hb
  · exact (hadvance hw).1
  · have hb' : PcBounded u := exec_keeps_pcBounded (hadvance hw).1 hw.running (hadvance hw).2 hfatal he
    exact hb'

theorem resumeIncrement_le (a : ResumeAdvance) : (resumeIncrement a).toNat ≤ 2 := by
  cases a <;> decide

theorem pressKey_keeps_pcBounded (k : Key) {s : State} (hb : PcBounded s) : PcBounded (pressKey k s) := by
  rcases pressKey_cases k s with ⟨-, hp⟩ | ⟨-, -, hp⟩ | ⟨-, hi, hp⟩ <;> rw [hp]
  · exact hb
  · exact hb
  · have hpc := hb.pc_le_of_awaiting hi
    refine ⟨?_, nofun, hb.stack_le⟩
    show (s.pc + resumeIncrement s.params.resumeAdvance).toNat ≤ 0x10FE
    rw [BitVec.toNat_add]
    have := resumeIncrement_le s.params.resumeAdvance
    omega

theorem loadProgram_keeps_pcBounded (bytes : List Byte) {s : State} (hb : PcBounded s) :
    PcBounded (loadProgram bytes s) := by
  obtain ⟨m, hm, -, -⟩ := loadProgram_eq bytes s
  rw [hm]
  exact hb

theorem resetWith_pcBounded (p : Params) (n : Nat) : PcBounded (State.resetWith p n) := by
  refine ⟨show (0x200#16).toNat ≤ 0x10FE by decide, nofun, fun k => ?_⟩
  simp [State.resetWith]

/-- The bounds hold after every host operation on a state that meets them (R27; D30). -/
theorem applyOp_keeps_pcBounded {op : HostOp} {s t : State} (hb : PcBounded s) (h : applyOp op s = .next t) :
    PcBounded t := by
  cases op with
  | step => exact step_keeps_pcBounded hb h
  | pressKey k =>
    cases h
    exact pressKey_keeps_pcBounded k hb
  | loadProgram bytes =>
    cases h
    exact loadProgram_keeps_pcBounded bytes hb
  | reset =>
    cases h
    exact resetWith_pcBounded s.params s.rndIndex
  | framebufferSnapshot | isAwaitingKey | faultStatus | soundActive =>
    cases h
    exact hb

/-- Settles O60: every host operation keeps the bounds, and 0x10FE + 4 is far below 2^16. -/
theorem pcAdditionsNeverWrap : Obligations.PcAdditionsNeverWrap := by
  refine ⟨fun _ _ _ => applyOp_keeps_pcBounded, fun s hb => ?_⟩
  have hpc := hb.pc_le
  exact BitVec.toNat_add_of_lt (show s.pc.toNat + 4 < 65536 by omega)

end Sys2Proof.Machine

/-! PROOFS. The state after reset (R42, R330). -/

namespace Sys2Proof.Machine

theorem unlistedByte_font (p : Params) {a : Nat} (h : a < 80) : unlistedByte p a = p.fontRom[a] := dif_pos h

theorem unlistedByte_rest (p : Params) {a : Nat} (h : 80 ≤ a) : unlistedByte p a = 0 := dif_neg (Nat.not_lt.mpr h)

/-- Settles O57: what memory does not list reads as the font or 0, and both invariants hold of the reset values. -/
theorem resetState : Obligations.ResetState := by
  refine ⟨fun p n => ⟨rfl, rfl, fun a h => unlistedByte_font p h, fun a h => unlistedByte_rest p h, fun r => ?_, rfl,
    rfl, fun k => ?_, rfl, rfl, fun x y => ?_, rfl, rfl, rfl, resetWith_inv p n, resetWith_pcBounded p n⟩, rfl,
    fun _ => rfl⟩
  · simp [State.getV, State.resetWith]
  · simp [State.resetWith]
  · simp [cellAt, State.resetWith]

end Sys2Proof.Machine

/-! PROOFS. Control flow: SYS, RET, CALL, the skips and JP V0 (R140 to R149). -/

namespace Sys2Proof.Machine

/-- Settles O6: the word of SYS NNN, with the two values of NNN that R85 excludes, and a handler that answers its own
state. -/
theorem sysDoesNothing : Obligations.SysDoesNothing := by
  refine ⟨fun w hF hcls hret => decode_of_encode_eq (formNNN_of_wordF hF) ?_, fun _ _ => rfl⟩
  have hw := formNNN_of_wordF hF
  have hne_cls : wordNNN w ≠ 0x0E0 := fun e => hcls (by rw [← hw, e]; rfl)
  have hne_ret : wordNNN w ≠ 0x0EE := fun e => hret (by rw [← hw, e]; rfl)
  simpa [WellFormed] using And.intro hne_cls hne_ret

/-- Settles O7: the pop has the entry, the frame and SP, and an empty stack raises. -/
theorem retPopsOrUnderflows : Obligations.RetPopsOrUnderflows := by
  refine ⟨decode_of_encode_eq (i := .ret) rfl, fun s k hk => ?_, fun s hsp => execRet_raises hsp⟩
  exact ⟨_, execRet_pops hk, rfl, rfl, popStack_setPc_changesOnly hk (popStack_of_pos s k hk)⟩

/-- Settles O9: the push has the entry, the frame and SP, and a full stack raises. -/
theorem callPushesOrOverflows : Obligations.CallPushesOrOverflows := by
  refine ⟨fun w hF => decode_of_encode_eq (formNNN_of_wordF hF), fun nnn s k hk => ?_,
    fun nnn s hsp => execCall_raises nnn hsp⟩
  exact ⟨_, execCall_pushes nnn hk, Vector.getElem_set_self _, rfl, zextImm_toNat nnn,
    pushStack_setPc_changesOnly _ hk (pushStack_of_lt s s.pc k hk)⟩

/-- Settles O51: the entry that the call set is the one that the return pops. -/
theorem retUndoesCall : Obligations.RetUndoesCall := by
  intro nnn s t u hsp h husp hustack
  have hk : s.sp.val = (⟨s.sp.val, hsp⟩ : Fin 16).val := rfl
  cases (execCall_pushes nnn hk).symm.trans h
  have hku : u.sp.val = (⟨s.sp.val, hsp⟩ : Fin 16).val + 1 := congrArg Fin.val husp
  refine ⟨_, execRet_pops hku, ?_, rfl⟩
  simp only [hustack]
  exact Vector.getElem_set_self _

/-- Settles O11: the handler is a skip on `Vx ≠ NN`. -/
theorem sneImmSkipsOnDifferent : Obligations.SneImmSkipsOnDifferent := by
  refine ⟨fun w hF => decode_of_encode_eq (formXNN_of_wordF hF), fun x nn s => ⟨_, rfl, ?_, skipIf_changesOnly s _⟩⟩
  simp only [skipIf_pc, bne_iff_ne, BitVec.toNat_inj, ite_not]

/-- Settles O12: the handler is a skip on `Vx = Vy`. -/
theorem seRegSkipsOnEqual : Obligations.SeRegSkipsOnEqual := by
  refine ⟨fun w hF => decode_of_encode_eq (formXYN_of_wordF hF), fun x y n s => ⟨_, rfl, ?_, skipIf_changesOnly s _⟩⟩
  simp only [skipIf_pc, beq_iff_eq, BitVec.toNat_inj]

/-- Settles O13: the handler is a skip on `Vx ≠ Vy`. -/
theorem sneRegSkipsOnDifferent : Obligations.SneRegSkipsOnDifferent := by
  refine ⟨fun w hF => decode_of_encode_eq (formXYN_of_wordF hF), fun x y n s => ⟨_, rfl, ?_, skipIf_changesOnly s _⟩⟩
  simp only [skipIf_pc, bne_iff_ne, ne_eq, BitVec.toNat_inj, ite_not]

/-- Settles O14: the target is the 16-bit sum of the two zero-extended operands. -/
theorem jpV0AddsV0 : Obligations.JpV0AddsV0 := by
  refine ⟨fun w hF => decode_of_encode_eq (formNNN_of_wordF hF), fun nnn s => ⟨_, rfl, ?_, setPc_changesOnly s _⟩⟩
  rw [State.setPc_pc, BitVec.toNat_add, zextByte_toNat, zextImm_toNat]

end Sys2Proof.Machine

/-! PROOFS. The ALU: immediates, copies, bitwise operations, the operations with a flag, the random byte (R170
to R183). -/

namespace Sys2Proof.Machine

/-- Settles O15: one register write. -/
theorem ldImmLoadsByte : Obligations.LdImmLoadsByte :=
  ⟨fun _ hF => decode_of_encode_eq (formXNN_of_wordF hF),
    fun x nn s => ⟨_, rfl, State.getV_setV_self s x nn, setV_changesOnly s x nn⟩⟩

/-- Settles O16: one register write of the 8-bit sum. -/
theorem addImmWrapsWithoutFlag : Obligations.AddImmWrapsWithoutFlag := by
  refine ⟨fun _ hF => decode_of_encode_eq (formXNN_of_wordF hF), fun x nn s => ⟨_, rfl, ?_, setV_changesOnly s x _⟩⟩
  rw [State.getV_setV_self, BitVec.toNat_add]

/-- Settles O17: one register write of the other register. -/
theorem ldRegCopies : Obligations.LdRegCopies :=
  ⟨fun _ hF hN => decode_of_encode_eq (formXYN_of_wordF_wordN hF hN),
    fun x y s => ⟨_, rfl, State.getV_setV_self s x _, setV_changesOnly s x _⟩⟩

/-- Settles O18: one register write of the operation that acts bit by bit. -/
theorem logicOpsCombineBits : Obligations.LogicOpsCombineBits := by
  refine ⟨fun w hF => ⟨fun hN => decode_of_encode_eq (formXYN_of_wordF_wordN hF hN),
    fun hN => decode_of_encode_eq (formXYN_of_wordF_wordN hF hN),
    fun hN => decode_of_encode_eq (formXYN_of_wordF_wordN hF hN)⟩, fun x y s =>
    ⟨⟨_, rfl, setV_changesOnly s x _, fun k => ?_⟩, ⟨_, rfl, setV_changesOnly s x _, fun k => ?_⟩,
      ⟨_, rfl, setV_changesOnly s x _, fun k => ?_⟩⟩⟩
  · rw [State.getV_setV_self, BitVec.getLsbD_or]
  · rw [State.getV_setV_self, BitVec.getLsbD_and]
  · rw [State.getV_setV_self]
    exact BitVec.getLsbD_xor

/-! ### Results with a flag -/

/-- A flag as a number (R38). -/
theorem flagByte_toNat (c : Bool) : (flagByte c).toNat = if c then 1 else 0 := by
  cases c <;> rfl

/-- Settles O19: the carry is written after the sum. -/
theorem addRegSetsCarry : Obligations.AddRegSetsCarry := by
  refine ⟨fun _ hF hN => decode_of_encode_eq (formXYN_of_wordF_wordN hF hN), fun x y s =>
    ⟨_, rfl, ?_, fun hx => ?_, setVWithFlag_changesOnly s x _ _⟩⟩
  · simp only [setVWithFlag_getV_vf, carryFlag, flagByte_toNat, decide_eq_true_eq]
  · rw [setVWithFlag_getV_of_ne s _ _ hx, BitVec.toNat_add]

theorem notBorrowFlag_toNat (a b : Byte) : (notBorrowFlag a b).toNat = if a.toNat < b.toNat then 0 else 1 := by
  simp only [notBorrowFlag, flagByte_toNat, decide_eq_true_eq, ite_not]

/-- Subtraction of bytes is modulo 256 (R177, R179). -/
theorem toNat_byte_sub (a b : Byte) : (a - b).toNat = (a.toNat + 256 - b.toNat) % 256 := by
  rw [BitVec.toNat_sub]
  have := b.isLt
  congr 1
  omega

/-- Settles O20: the flag is written after the difference. -/
theorem subRegSetsNotBorrow : Obligations.SubRegSetsNotBorrow := by
  refine ⟨fun _ hF hN => decode_of_encode_eq (formXYN_of_wordF_wordN hF hN), fun x y s =>
    ⟨_, rfl, ?_, fun hx => ?_, setVWithFlag_changesOnly s x _ _⟩⟩
  · rw [setVWithFlag_getV_vf, notBorrowFlag_toNat]
  · rw [setVWithFlag_getV_of_ne s _ _ hx, toNat_byte_sub]

/-- Settles O21: the low bit of Vy is written after the shifted value. -/
theorem shrShiftsVyRight : Obligations.ShrShiftsVyRight := by
  refine ⟨fun _ hF hN => decode_of_encode_eq (formXYN_of_wordF_wordN hF hN), fun x y s =>
    ⟨_, rfl, ?_, fun hx => ?_, setVWithFlag_changesOnly s x _ _⟩⟩
  · rw [setVWithFlag_getV_vf, shiftedOutLow, BitVec.toNat_and]
    exact Nat.and_one_is_mod _
  · rw [setVWithFlag_getV_of_ne s _ _ hx, BitVec.toNat_ushiftRight, Nat.shiftRight_one]

/-- Settles O22: the flag is written after the difference. -/
theorem subnRegSetsNotBorrow : Obligations.SubnRegSetsNotBorrow := by
  refine ⟨fun _ hF hN => decode_of_encode_eq (formXYN_of_wordF_wordN hF hN), fun x y s =>
    ⟨_, rfl, ?_, fun hx => ?_, setVWithFlag_changesOnly s x _ _⟩⟩
  · rw [setVWithFlag_getV_vf, notBorrowFlag_toNat]
  · rw [setVWithFlag_getV_of_ne s _ _ hx, toNat_byte_sub]

/-- Settles O23: the high bit of Vy is written after the shifted value. -/
theorem shlShiftsVyLeft : Obligations.ShlShiftsVyLeft := by
  refine ⟨fun _ hF hN => decode_of_encode_eq (formXYN_of_wordF_wordN hF hN), fun x y s =>
    ⟨_, rfl, ?_, fun hx => ?_, setVWithFlag_changesOnly s x _ _⟩⟩
  · rw [setVWithFlag_getV_vf, shiftedOutHigh, BitVec.toNat_and, BitVec.toNat_ushiftRight, Nat.shiftRight_eq_div_pow]
    have := (s.getV y).isLt
    exact (Nat.and_one_is_mod _).trans (Nat.mod_eq_of_lt (by omega))
  · rw [setVWithFlag_getV_of_ne s _ _ hx, BitVec.toNat_shiftLeft, Nat.shiftLeft_eq]

/-- Settles O24: one register write of the offered byte under the mask. -/
theorem rndMasksOfferedByte : Obligations.RndMasksOfferedByte := by
  refine ⟨fun _ hF => decode_of_encode_eq (formXNN_of_wordF hF),
    fun x nn s => ⟨_, rfl, fun k => ?_, setV_changesOnly s x _⟩⟩
  rw [rndWith, State.getV_setV_self, BitVec.getLsbD_and]

end Sys2Proof.Machine

/-! PROOFS. The index register, the keys and the timers (R210 to R212, R260 to R265). -/

namespace Sys2Proof.Machine

/-- Settles O25: one write of I. -/
theorem ldISetsIndex : Obligations.LdISetsIndex :=
  ⟨fun _ hF => decode_of_encode_eq (formNNN_of_wordF hF),
    fun nnn s => ⟨_, rfl, zextImm_toNat nnn, setI_changesOnly s _⟩⟩

/-- Settles O26: one write of I with the 16-bit sum. -/
theorem addIWrapsWithoutFlag : Obligations.AddIWrapsWithoutFlag := by
  refine ⟨fun _ hF hNN => decode_of_encode_eq (formXNN_of_wordF_wordNN hF hNN),
    fun x s => ⟨_, rfl, ?_, setI_changesOnly s _⟩⟩
  rw [State.setI_i, BitVec.toNat_add, zextByte_toNat]

/-- Five bytes a glyph, and no byte is large enough to wrap (R212). -/
theorem glyphAddress_toNat (b : Byte) : (glyphAddress b).toNat = 5 * b.toNat := by
  have := b.isLt
  rw [glyphAddress, BitVec.toNat_mul, zextByte_toNat, Nat.mul_comm]
  exact Nat.mod_eq_of_lt (show 5 * b.toNat < 65536 by omega)

/-- Settles O27: one write of I with the glyph's address. -/
theorem ldFPointsToGlyph : Obligations.LdFPointsToGlyph :=
  ⟨fun _ hF hNN => decode_of_encode_eq (formXNN_of_wordF_wordNN hF hNN),
    fun x s => ⟨_, rfl, glyphAddress_toNat _, setI_changesOnly s _⟩⟩

theorem not_keyMatches {key : Option Key} {b : Byte} (h : ∀ k, key = some k → b.toNat ≠ k.toNat) :
    ¬ keyMatches key b = true := fun hmatch =>
  have ⟨k, hk, hb⟩ := keyMatches_iff.mp hmatch
  h k hk hb

/-- Settles O35: the two branches of the match with the tracked key. -/
theorem skpSkipsOnTrackedKey : Obligations.SkpSkipsOnTrackedKey := by
  refine ⟨fun _ hF hNN => decode_of_encode_eq (formXNN_of_wordF_wordNN hF hNN),
    fun x s k hk hx => ?_, fun x s hno => ?_⟩
  · have hmatch := keyMatches_iff.mpr ⟨k, hk, hx⟩
    exact ⟨skipNext s, congrArg _ (if_pos hmatch), rfl, setPc_changesOnly s _⟩
  · have hmiss := not_keyMatches hno
    exact ⟨s.setLastKey none, congrArg _ (if_neg hmiss), rfl, setLastKey_changesOnly s none⟩

/-- Settles O36: the two branches of the match with the tracked key. -/
theorem sknpSkipsOnOtherKey : Obligations.SknpSkipsOnOtherKey := by
  refine ⟨fun _ hF hNN => decode_of_encode_eq (formXNN_of_wordF_wordNN hF hNN),
    fun x s k hk hx => ?_, fun x s hno => ?_⟩
  · have hmatch := keyMatches_iff.mpr ⟨k, hk, hx⟩
    exact congrArg _ (if_pos hmatch)
  · have hmiss := not_keyMatches hno
    refine ⟨(skipNext s).setLastKey none, congrArg _ (if_neg hmiss), rfl, rfl, ?_⟩
    exact ((setPc_changesOnly s _).mono fun _ => .inl).trans ((setLastKey_changesOnly _ none).mono fun _ => .inr)

/-- Settles O37: the register is written before the tick. -/
theorem ldVxDtReadsBeforeTick : Obligations.LdVxDtReadsBeforeTick := by
  refine ⟨fun _ hF hNN => decode_of_encode_eq (formXNN_of_wordF_wordNN hF hNN),
    fun x s => ⟨_, rfl, State.getV_setV_self s x _, setV_changesOnly s x _⟩, fun x s hw => ?_⟩
  exact ⟨_, step_of_completes hw (decode_encode rfl) rfl hw.1, State.getV_setV_self _ x _, tickTimer_toNat s.dt⟩

/-- Settles O38: the handler's state and its frame. -/
theorem ldVxKAwaitsKey : Obligations.LdVxKAwaitsKey := by
  refine ⟨fun _ hF hNN => decode_of_encode_eq (formXNN_of_wordF_wordNN hF hNN), fun x s => ?_⟩
  obtain ⟨t, ht, hframe⟩ := execLdVxK_writesOnlyTargets x s
  cases (exec_ldVxK x s).symm.trans ht
  exact ⟨_, rfl, rfl, rfl, hframe.1 rfl⟩

/-- Settles O39: the step sets DT and then ticks it. -/
theorem ldDtVxIsTickedAtOnce : Obligations.LdDtVxIsTickedAtOnce :=
  ⟨fun _ hF hNN => decode_of_encode_eq (formXNN_of_wordF_wordNN hF hNN),
    fun x s => ⟨_, rfl, rfl, setDt_changesOnly s _⟩,
    fun x s hw => ⟨_, step_of_ldDtVx hw (decode_encode rfl), tickTimer_toNat (s.getV x)⟩⟩

theorem soundActive_iff (s : State) : soundActive s = true ↔ s.st.toNat ≠ 0 := by
  rw [soundActive, bne_iff_ne, ne_eq, ← BitVec.toNat_inj]
  rfl

/-- Settles O40: the step sets ST and then ticks it, and what is left is not 0 exactly from 2 on. -/
theorem ldStVxIsTickedAtOnce : Obligations.LdStVxIsTickedAtOnce := by
  refine ⟨fun _ hF hNN => decode_of_encode_eq (formXNN_of_wordF_wordNN hF hNN),
    fun x s => ⟨_, rfl, rfl, setSt_changesOnly s _⟩, fun x s hw => ?_⟩
  have hst : (completeStep ((advancePc s).setSt (s.getV x))).st.toNat = (s.getV x).toNat - 1 := tickTimer_toNat _
  refine ⟨_, step_of_ldStVx hw (decode_encode rfl), hst, ?_⟩
  rw [soundActive_iff, hst]
  omega

end Sys2Proof.Machine

/-! PROOFS. The transfers between registers and memory: digits, block stores, block loads, and the fetch of what a store
left (R66, R75, R213 to R215). -/

namespace Sys2Proof.Machine

/-! ### Block stores -/

/-- The bytes of a block write that fits stand in memory in ascending order (R66). -/
theorem byteAt_writeBytes (s : State) {a k : Nat} {bs : List Byte} {b : Byte} (h : a + bs.length ≤ 0x1000)
    (hb : bs[k]? = some b) : (orAddressingError s (writeBytes s a bs)).byteAt (a + k) = b := by
  obtain ⟨m, hm, -, hget⟩ := writeBytes_ok s a bs h
  rw [hm, orAddressingError_ok, State.byteAt_setMem, hget, if_pos (Nat.le_add_right a k), Nat.add_sub_cancel_left, hb,
    Option.getD_some]

/-- Settles O28: the digits are the block that is written, and a block that does not fit raises. -/
theorem ldBStoresDigits : Obligations.LdBStoresDigits := by
  refine ⟨fun _ hF hNN => decode_of_encode_eq (formXNN_of_wordF_wordNN hF hNN), fun x s hfit => ?_, fun x s hout =>
    exec_of_fatalOf (i := .ldBVx x) (if_pos hout)⟩
  have hlen : baseAddress s + (bcdDigits (s.getV x)).length ≤ 0x1000 := Nat.succ_le_succ hfit
  have hv := (s.getV x).isLt
  refine ⟨_, rfl, ?_, ?_, ?_, orAddressingError_writeBytes_changesOnly s hlen⟩
  · exact (congrArg _ (byteAt_writeBytes s (k := 0) hlen rfl)).trans (Nat.mod_eq_of_lt (by omega))
  · exact (congrArg _ (byteAt_writeBytes s (k := 1) hlen rfl)).trans (Nat.mod_eq_of_lt (by omega))
  · exact (congrArg _ (byteAt_writeBytes s (k := 2) hlen rfl)).trans (Nat.mod_eq_of_lt (by omega))

/-- A block store that fits puts each register up to X at its place and changes nothing else (R214). -/
theorem exec_storeRegs_spec {x : Reg} {s : State} (h : baseAddress s + x.val ≤ 0xFFF) :
    ∃ t, exec (.storeRegs x) s = .next t ∧
      (∀ r : Reg, r ≤ x → t.byteAt (baseAddress s + r.val) = s.getV r) ∧
      ChangesOnly (mayWrite (.storeRegs x) s) s t := by
  have hlen : baseAddress s + (firstRegs s (blockLength x)).length ≤ 0x1000 := by
    rw [firstRegs_blockLength]
    exact Nat.succ_le_succ h
  obtain ⟨t, ht, hframe⟩ := execStoreRegs_writesOnlyTargets x s
  refine ⟨_, rfl, fun r hr => byteAt_writeBytes s hlen ?_, ?_⟩
  · rw [firstRegs_getElem?, if_pos (lt_blockLength_iff.mpr hr)]
  · cases ht
    exact hframe.1 ((fatalOf_storeRegs_eq_none_iff x s).mpr (Nat.succ_le_succ h))

/-- Settles O29: the registers up to X are the block that is written, and a block that does not fit raises. -/
theorem storeRegsStoresBlock : Obligations.StoreRegsStoresBlock :=
  ⟨fun _ hF hNN => decode_of_encode_eq (formXNN_of_wordF_wordNN hF hNN), fun _ _ => exec_storeRegs_spec,
    fun x _ hout => exec_of_fatalOf (i := .storeRegs x) (if_pos hout)⟩

/-! ### Block loads -/

/-- A block load that fits gives each register up to X the byte at its place and changes nothing else (R215). -/
theorem exec_loadRegs_spec {x : Reg} {s : State} (h : baseAddress s + x.val ≤ 0xFFF) :
    ∃ t, exec (.loadRegs x) s = .next t ∧
      (∀ r : Reg, r ≤ x → t.getV r = s.byteAt (baseAddress s + r.val)) ∧
      ChangesOnly (mayWrite (.loadRegs x) s) s t := by
  have hfit : baseAddress s + blockLength x ≤ 0x1000 := Nat.succ_le_succ h
  obtain ⟨t, ht, hframe⟩ := execLoadRegs_writesOnlyTargets x s
  refine ⟨t, ht, fun r hr => ?_, hframe.1 ((fatalOf_loadRegs_eq_none_iff x s).mpr hfit)⟩
  cases ht
  rw [readBytes_ok s _ _ hfit]
  show (writeRegs s 0 _).getV r = _
  rw [writeRegs_getV, if_pos (Nat.zero_le _), List.getElem?_map, Nat.sub_zero,
    List.getElem?_range (lt_blockLength_iff.mpr hr)]
  rfl

/-- Settles O30: the bytes that are read go to the registers up to X, and a block that does not fit raises. -/
theorem loadRegsLoadsBlock : Obligations.LoadRegsLoadsBlock :=
  ⟨fun _ hF hNN => decode_of_encode_eq (formXNN_of_wordF_wordNN hF hNN), fun _ _ => exec_loadRegs_spec,
    fun x _ hout => exec_of_fatalOf (i := .loadRegs x) (if_pos hout)⟩

/-- Settles O31: the load reads at the I of the store the bytes that the store put there. -/
theorem blockLoadRestoresBlockStore : Obligations.BlockLoadRestoresBlockStore := by
  intro x s t u hfit h hi hbytes
  obtain ⟨t', ht', hstored, hframe⟩ := exec_storeRegs_spec hfit
  cases ht'.symm.trans h
  have hti : t.i = s.i := hframe .i (by simp [mayWrite])
  have hbase : baseAddress u = baseAddress s := congrArg BitVec.toNat (hi.trans hti)
  obtain ⟨u', hu', hloaded, -⟩ := exec_loadRegs_spec (x := x) (s := u) (hbase ▸ hfit)
  refine ⟨u', hu', fun r hr => ?_⟩
  rw [hloaded r hr, hbytes, hbase, hstored r hr]

/-- Settles O52: the two bytes of the fetch are two neighbours of the stored block. -/
theorem fetchSeesBlockStore : Obligations.FetchSeesBlockStore := by
  intro x r q s t hfit hq hqx h hpc
  obtain ⟨t', ht', hstored, -⟩ := exec_storeRegs_spec hfit
  cases ht'.symm.trans h
  have hqx' : q.val ≤ x.val := hqx
  have hrx : r ≤ x := Fin.le_def.mpr (by omega)
  rw [fetchWord_eq, if_neg (by omega), hpc, hstored r hrx, Nat.add_assoc, ← hq, hstored q hqx]

end Sys2Proof.Machine

/-! PROOFS. The framebuffer: clearing it, drawing on it, drawing twice (R240 to R243). -/

namespace Sys2Proof.Machine

/-- Settles O32: every cell of the new framebuffer is 0. -/
theorem clsClearsScreen : Obligations.ClsClearsScreen := by
  refine ⟨decode_of_encode_eq (i := .cls) rfl, fun s => ⟨_, rfl, fun x y => ?_, setFb_changesOnly s clearFb⟩⟩
  simp [cellAt, clearFb]

/-- The rows of a sprite that is empty or fits (R242). -/
theorem readBytes_of_fits (s : State) {a n : Nat} (h : n = 0 ∨ a + n ≤ 0x1000) :
    readBytes s a n = .ok ((List.range n).map fun k => s.byteAt (a + k)) := by
  rcases h with rfl | h
  · rfl
  · exact readBytes_ok s a n h

/-- Drawing the `n` rows at `I` toggles the cells that they cover and no other, and leaves the collision in VF
(R242). -/
theorem drawSprite_spec (s : State) (vx vy : Byte) {n : Nat} (hn : n ≤ 32) :
    ∃ t c, drawSprite s vx vy ((List.range n).map fun k => s.byteAt (baseAddress s + k)) = t ∧
      (∀ cx cy, (SpriteCovers s vx vy n cx cy → cellAt t.fb cx cy = !cellAt s.fb cx cy) ∧
        (¬ SpriteCovers s vx vy n cx cy → cellAt t.fb cx cy = cellAt s.fb cx cy)) ∧
      t.getV vf = flagByte c ∧ (c = true ↔ ∃ cx cy, SpriteCovers s vx vy n cx cy ∧ cellAt s.fb cx cy = true) := by
  obtain ⟨hcells, hhit⟩ := drawRows_spec (originX vx) (originY vy)
    ((List.range n).map fun k => s.byteAt (baseAddress s + k)) (by simpa using hn) (s.fb, false)
  simp only [rowsCover_iff_spriteCovers, Bool.false_eq_true, false_or] at hcells hhit
  exact ⟨_, _, rfl, hcells, State.getV_setV_self _ vf _, hhit⟩

/-- Settles O33: the sprite's rows are read first and then drawn, and a sprite that does not fit raises. -/
theorem drwTogglesCoveredCells : Obligations.DrwTogglesCoveredCells := by
  refine ⟨fun _ hF => decode_of_encode_eq (formXYN_of_wordF hF), fun x y n s hfit => ?_, fun x y n s hn hout =>
    exec_of_fatalOf (i := .drw x y n) (if_pos ⟨hn, hout⟩)⟩
  have hfits : n.toNat = 0 ∨ baseAddress s + n.toNat ≤ 0x1000 := by
    rcases hfit with rfl | h
    · exact .inl rfl
    · exact .inr (by omega)
  obtain ⟨t, c, hdraw, hcells, hvf, hhit⟩ := drawSprite_spec s (s.getV x) (s.getV y) (n := n.toNat) (by omega)
  have hexec : exec (.drw x y n) s = .next t := by
    show execDrw x y n s = .next t
    rw [execDrw, readBytes_of_fits s hfits, ← hdraw]
    rfl
  obtain ⟨u, hu, hframe⟩ := exec_writesOnlyTargets (.drw x y n) s
  cases hu.symm.trans hexec
  refine ⟨t, hexec, fun cx cy => (hcells cx cy).1, fun cx cy => (hcells cx cy).2, fun h => ?_, fun h => ?_,
    hframe.1 ((fatalOf_drw_eq_none_iff x y n s).mpr hfits)⟩
  · rw [hvf, hhit.mpr h]
    rfl
  · rw [hvf, Bool.eq_false_iff.mpr (mt hhit.mp h)]
    rfl

/-- What a sprite covers depends on I, on memory and on the origin modulo the screen's size alone (R240). -/
theorem spriteCovers_congr {s t : State} {vx vy wx wy : Byte} (hi : t.i = s.i) (hbytes : ∀ a, t.byteAt a = s.byteAt a)
    (hx : wx.toNat % 64 = vx.toNat % 64) (hy : wy.toNat % 32 = vy.toNat % 32) (n : Nat) (cx : Fin 64) (cy : Fin 32) :
    SpriteCovers t wx wy n cx cy ↔ SpriteCovers s vx vy n cx cy := by
  simp only [SpriteCovers, baseAddress, hi, hbytes, hx, hy]

/-- A draw that leaves the latch clear has an empty sprite or one that fits (R242, R291). -/
theorem drw_fits_of_clear {x y : Reg} {n : Nibble} {s t : State} (hs : s.fault = none)
    (h : exec (.drw x y n) s = .next t) (ht : t.fault = none) : n = 0 ∨ baseAddress s + n.toNat - 1 ≤ 0xFFF := by
  obtain ⟨u, hu, hfault⟩ := exec_fault (.drw x y n) hs
  cases hu.symm.trans h
  rw [ht] at hfault
  have hfatal := Option.map_eq_none_iff.mp hfault.symm
  rcases (fatalOf_drw_eq_none_iff x y n s).mp hfatal with hn | hn
  · exact .inl (BitVec.eq_of_toNat_eq hn)
  · exact .inr (by omega)

/-- Settles O34: the second draw covers the same cells, so it toggles each back, and it collides where the first draw
had set a cell. -/
theorem secondDrawRestoresScreen : Obligations.SecondDrawRestoresScreen := by
  intro x y x' y' n s t s' u hs ht htclear hcells hi hbytes hx hy hu
  obtain ⟨-, hdraw, -⟩ := drwTogglesCoveredCells
  have hfit := drw_fits_of_clear hs ht htclear
  have hfit' : n = 0 ∨ baseAddress s' + n.toNat - 1 ≤ 0xFFF := by rwa [baseAddress, hi]
  obtain ⟨t', ht', hon, hoff, -⟩ := hdraw x y n s hfit
  cases ht'.symm.trans ht
  obtain ⟨u', hu', hon', hoff', hhit', hmiss', -⟩ := hdraw x' y' n s' hfit'
  cases hu'.symm.trans hu
  simp only [spriteCovers_congr hi hbytes hx hy, hcells] at hon' hoff' hhit' hmiss'
  have hset : (∃ cx cy, SpriteCovers s (s.getV x) (s.getV y) n.toNat cx cy ∧ cellAt t.fb cx cy = true) ↔
      ∃ cx cy, SpriteCovers s (s.getV x) (s.getV y) n.toNat cx cy ∧ cellAt s.fb cx cy = false :=
    exists_congr fun cx => exists_congr fun cy => and_congr_right fun hc => by rw [hon cx cy hc, Bool.not_eq_true']
  refine ⟨fun cx cy => ?_, ?_⟩
  · by_cases hc : SpriteCovers s (s.getV x) (s.getV y) n.toNat cx cy
    · rw [hon' cx cy hc, hon cx cy hc, Bool.not_not]
    · rw [hoff' cx cy hc, hoff cx cy hc]
  · rw [← hset]
    refine ⟨fun hvf => ?_, hhit'⟩
    by_contra hno
    simp [hmiss' hno] at hvf

end Sys2Proof.Machine

/-! PROOFS. VF: which instructions can change VF (R22). -/

namespace Sys2Proof.Machine

/-- An instruction that changes a register has it among its targets. -/
theorem mayWrite_of_getV_ne {i : Instr} {s t : State} {r : Reg} (h : exec i s = .next t) (hr : t.getV r ≠ s.getV r) :
    mayWrite i s (.v r) := by
  obtain ⟨u, hu, hframe⟩ := exec_writesOnlyTargets i s
  cases hu.symm.trans h
  by_contra hno
  by_cases hfatal : fatalOf i s = none
  · exact hr (hframe.1 hfatal (.v r) hno)
  · exact hr (hframe.2 hfatal (.v r) (by simp))

/-- Settles O48: VF is then among the instruction's targets, which leaves the named instructions. -/
theorem onlyNamedInstructionsChangeVf : Obligations.OnlyNamedInstructionsChangeVf := by
  intro i s t h hvf
  have hmay := mayWrite_of_getV_ne h hvf
  cases i with
  | addReg x y | subReg x y | shrReg x y | subnReg x y | shlReg x y => exact .inl ⟨x, y, by simp⟩
  | drw => exact .inr (.inl ⟨_, _, _, rfl⟩)
  | loadRegs x =>
    obtain ⟨r, hr, hp⟩ := hmay
    cases hp
    have hx : x = vf := le_antisymm (Fin.le_last x) hr
    simp [hx]
  | ldImm | addImm | rnd | ldReg | orReg | andReg | xorReg | ldVxDt =>
    obtain rfl : vf = _ := Part.v.inj hmay
    simp
  | _ => simp [mayWrite] at hmay

end Sys2Proof.Machine

/-! PROOFS. The host's operations: the key press, the program load and the probes (R115 to R120). -/

namespace Sys2Proof.Machine

/-! ### The key press -/

theorem pressKey_running (k : Key) {s : State} (hf : s.fault = none) (hi : s.inputState = .running) :
    pressKey k s = s.setLastKey (some k) := by
  simp [pressKey, hf, hi]

theorem pressKey_awaiting (k : Key) {s : State} (hf : s.fault = none) (hi : s.inputState = .awaitingKey) :
    pressKey k s = resumeWithKey k (s.setLastKey (some k)) := by
  simp [pressKey, hf, hi]

theorem zextKey_toNat (k : Key) : (zextKey k).toNat = k.toNat := by
  have := k.isLt
  simp only [zextKey, BitVec.toNat_setWidth]
  omega

/-- Resuming writes the target register, the input state and PC (R116, R117). -/
theorem resumeWithKey_changesOnly (k : Key) (s : State) :
    ChangesOnly (fun p => p = .v s.keyTarget ∨ p = .inputState ∨ p = .pc) s (resumeWithKey k s) := by
  intro p hp
  cases p with
  | v r => exact State.getV_setV_of_ne s _ fun e => hp (.inl (congrArg _ e))
  | inputState => exact absurd (.inr (.inl rfl)) hp
  | pc => exact absurd (.inr (.inr rfl)) hp
  | _ => rfl

/-- Settles O53: a press on a frozen, a running and a waiting core. -/
theorem pressKeyDeliversKey : Obligations.PressKeyDeliversKey := by
  refine ⟨fun k s => pressKey_frozen k, fun k s hf hi => pressKey_running k hf hi, fun k s hf hi => ?_⟩
  rw [pressKey_awaiting k hf hi]
  refine ⟨rfl, ?_, rfl, ?_, ?_⟩
  · exact (congrArg _ (State.getV_setV_self _ s.keyTarget _)).trans (zextKey_toNat k)
  · show s.pc + resumeIncrement s.params.resumeAdvance = _
    cases s.params.resumeAdvance <;> rfl
  · exact ((setLastKey_changesOnly s _).mono fun _ => .inl).trans
      ((resumeWithKey_changesOnly k _).mono fun _ => .inr)

/-! ### The program load -/

/-- An image that fits is a block write at 0x200 (R115). -/
theorem loadProgram_of_fits {bytes : List Byte} (s : State) (h : bytes.length ≤ 3584) :
    loadProgram bytes s = orAddressingError s (writeBytes s 0x200 bytes) := by
  obtain ⟨m, hm, -, -⟩ := writeBytes_ok s 0x200 bytes (by omega)
  rw [loadProgram, if_neg (show ¬ bytes.length > maxProgramLength from Nat.not_lt.mpr h), hm]
  rfl

/-- Settles O54: an image that fits is a block write at 0x200. -/
theorem loadProgramCopiesImage : Obligations.LoadProgramCopiesImage := by
  refine ⟨fun bytes s h => ⟨if_pos h, if_pos h⟩, fun bytes s h => ⟨if_neg (Nat.not_lt.mpr h), ?_⟩⟩
  have hfit : 0x200 + bytes.length ≤ 0x1000 := by omega
  rw [loadProgram_of_fits s h]
  exact ⟨fun k b => byteAt_writeBytes s hfit, orAddressingError_writeBytes_changesOnly s hfit⟩

/-! ### The probes -/

/-- The snapshot is the framebuffer's rows one after the other (R118). -/
theorem framebufferSnapshot_eq (s : State) : framebufferSnapshot s = s.fb.flatten.toList := by
  simp only [framebufferSnapshot, Vector.flatten, List.flatMap_def, Array.toList_flatten, Array.toList_map,
    Vector.toList_mk, List.map_map]
  rfl

theorem framebufferSnapshot_getElem? (s : State) (x : Fin 64) (y : Fin 32) :
    (framebufferSnapshot s)[y.val * 64 + x.val]? = some (cellAt s.fb x y) := by
  have hlt : y.val * 64 + x.val < 32 * 64 := by omega
  rw [framebufferSnapshot_eq, Vector.getElem?_toList, Vector.getElem?_eq_getElem hlt, Vector.getElem_flatten]
  have hrow : (y.val * 64 + x.val) / 64 = y.val := by omega
  have hcolumn : (y.val * 64 + x.val) % 64 = x.val := by omega
  simp only [hrow, hcolumn, cellAt]

theorem isAwaitingKey_iff (s : State) : isAwaitingKey s = true ↔ s.inputState = .awaitingKey := by
  simp [isAwaitingKey]

/-- Settles O55: each probe reads one piece of state. -/
theorem probesOnlyRead : Obligations.ProbesOnlyRead := by
  intro s
  refine ⟨⟨?_, framebufferSnapshot_getElem? s⟩, isAwaitingKey_iff s, rfl, soundActive_iff s, ?_⟩
  · rw [framebufferSnapshot_eq, Vector.length_toList]
  · rintro op (rfl | rfl | rfl | rfl) <;> rfl

end Sys2Proof.Machine
